-- ==== Sys2Proof/Word.lean ====
section
/-! DEFINITION. The widths of the block's values: every value is unsigned, of 7, 16 or 32 bits, and a frame is made of
bytes (00_scope.md R13; 10_state.md R29; 30_encoding.md R63). -/

namespace Sys2Proof

/-- One byte of a telemetry frame (30_encoding.md R63). -/
abbrev Byte := BitVec 8

/-- One buffer entry, one sample, one voltage code: 16 bits, unsigned (00_scope.md R6 `CODE_W`, R7 `SAMPLE_W`). -/
abbrev Sample := BitVec 16

/-- One average slot, one command word, one response word: 32 bits (00_scope.md R6 `AVG_W`; 30_encoding.md R61, R62). -/
abbrev Word := BitVec 32

/-- An index into a ring, and the type of the cursor: 7 bits, so that 0..127 are all its values (10_state.md R23). -/
abbrev RingIndex := BitVec 7

end Sys2Proof
end

