-- ==== Sys2Proof/Config.lean ====
section
/-! DEFINITION. The constants of the block (00_scope.md R6), its open parameters (R8 to R12), and the free values: what
the spec leaves to the implementation or to the environment. A free value is an opaque constant with no body. -/

namespace Sys2Proof

/-- Battery packs (R6). -/
def nBatt : Nat := 2

/-- Cells of a pack (R6). -/
def nCell : Nat := 6

/-- Logical cells = rings = average slots = channels (R6). -/
def nCells : Nat := nBatt * nCell

/-- log2 of the ring capacity: the ONE constant from which size, mask and shift are derived (R6; 70_reset_and_hazards.md
R163; 90_conflicts.md C1). -/
def log2Cap : Nat := 7

/-- Entries of a ring: 128, not 127 (R6; 90_conflicts.md C1). -/
def capacity : Nat := 2 ^ log2Cap

/-- The wrap mask of the cursor, `CAPACITY` − 1 = 0x7F (R6; 40_buffer_write.md R83). -/
def curMask : RingIndex := BitVec.ofNat 7 (capacity - 1)

/-- Bytes of a telemetry frame (R6). -/
def frameBytes : Nat := 3

/-- The bitmask of channels requested from the Sample Source: constant, bit `ch` is channel `ch`
(30_encoding.md R60; 40_buffer_write.md R88; D12). -/
def chanMask : BitVec 12 := 0xFFF#12

/-- A cell identity (b, c): batteryIndex in 0..1, cellIndex in 0..5 (00_scope.md R19). -/
structure CellId where
  b : Fin 2
  c : Fin 6
deriving DecidableEq, Repr

/-- The 12 samples of one tick, in channel order (30_encoding.md R60 `samp[0..11]`). -/
abbrev Samples := Vector Sample 12

/-- `REDUCE_POLICY` (00_scope.md R10). -/
inductive ReducePolicy where
  | onWrap
  | everyTick
deriving DecidableEq, Repr

/-- `PUBLISH_GRANULARITY` (00_scope.md R11). -/
inductive Granularity where
  | tick
  | slot
deriving DecidableEq, Repr

/-- The open parameters, fixed when the block is built (10_state.md R26; 92_eei_decisions.md, last table). -/
structure Config where
  /-- `SENTINEL` (R8). -/
  sentinel : Sample
  /-- `ROUTE`, indexed by channel (R9). -/
  route : Vector CellId 12
  /-- `REDUCE_POLICY` (R10). -/
  policy : ReducePolicy
  /-- `PUBLISH_GRANULARITY` (R11). -/
  granularity : Granularity
  /-- `TX_DEST`, an opaque identifier that no rule reads (R12; 60_exceptions.md R143). -/
  txDest : Nat
deriving DecidableEq, Repr

/-- The hypotheses the spec puts on its parameters: `SENTINEL` ≠ 0 (R8), and no two channels feed the same cell, which
for 12 channels and 12 cells makes `ROUTE` a bijection (R9). -/
abbrev Config.wf (cfg : Config) : Prop := cfg.sentinel ≠ 0#16 ∧ cfg.route.toList.Nodup

/-- FREE VALUE (log 2): which of the 65535 legal values `SENTINEL` has in the block that `State.reset` describes. -/
opaque Config.freeSentinelIndex : Fin 65535

/-- The legal sentinel number `k`: every value but 0 (R8). -/
def Config.legalSentinel (k : Fin 65535) : Sample := BitVec.ofNat 16 (k.val + 1)

/-- FREE VALUE (log 17): `TX_DEST` of the block that `State.reset` describes. -/
opaque Config.freeTxDest : Nat

/-- FREE VALUE (log 7): the readings the Sample Source presents at a tick for which State queues none
(93_implementation_defined.md U1), one for each draw. -/
opaque Config.freeSamples : Nat → Samples

/-- FREE VALUE (log 6): the choice among points of the total order that are possible at once, where State names none
(93_implementation_defined.md U13, U14), one for each draw. -/
opaque Config.freeIndex : Nat → Nat

end Sys2Proof
end

