-- ==== Sys2Proof/Machine/Router.lean ====
section
/-! DEFINITION. The channel router: a constant table from channel to cell identity (40_buffer_write.md R85), and the
parameters of the block that `State.reset` describes. -/

namespace Sys2Proof.Machine

/-- The default `ROUTE`, transcribed from the table of 40_buffer_write.md R85 (D11; log 20). -/
def defaultRoute : Vector CellId 12 :=
  #v[⟨0, 2⟩, ⟨0, 3⟩, ⟨0, 4⟩, ⟨0, 5⟩, ⟨0, 1⟩, ⟨0, 0⟩, ⟨1, 0⟩, ⟨1, 1⟩, ⟨1, 2⟩, ⟨1, 3⟩, ⟨1, 4⟩, ⟨1, 5⟩]

/-- The cell that receives the samples of channel `ch` (40_buffer_write.md R85). -/
def routeOf (cfg : Config) (ch : Fin 12) : CellId := cfg.route.get ch

/-- The channels, in order (30_encoding.md R60). -/
def channels : List (Fin 12) := [0, 1, 2, 3, 4, 5, 6, 7, 8, 9, 10, 11]

/-- The configuration of `State.reset`: the spec's defaults where it gives one, free values where it gives none
(92_eei_decisions.md, last table; log 1, 2, 17, 20). -/
def standardConfig : Config :=
  { sentinel := Config.legalSentinel Config.freeSentinelIndex
    route := defaultRoute
    policy := .onWrap
    granularity := .tick
    txDest := Config.freeTxDest }

end Sys2Proof.Machine
end

