-- ==== Sys2Proof/Syntax.lean ====
section
/-! DEFINITION. The eight operations (00_scope.md R16), one constructor per row of spec/opcode_table.json, with the
operand fields of the command word as they stand in it (30_encoding.md R61). -/

namespace Sys2Proof

/-- The two command ports: W of the write-side agent, R of the read-side agent (30_encoding.md R60). -/
inductive Port where
  | w
  | r
deriving DecidableEq, Repr

/-- One operation. `b` and `c` are the 4-bit fields of the command word; which of their values are legal is
`Instr.wellFormed`. `NOP` is accepted on both ports and answers on its own, so it names the port (log 4). -/
inductive Instr where
  /-- `NOP` (40_buffer_write.md R84). -/
  | nop (p : Port)
  /-- `WR b, c, #d` (40_buffer_write.md R80). -/
  | wr (b c : BitVec 4) (d : Sample)
  /-- `ADV` (40_buffer_write.md R82). -/
  | adv
  /-- `TICK` (40_buffer_write.md R86); its samples come from the sample port. -/
  | tick
  /-- `RED` (41_reduce.md R103). -/
  | red
  /-- `RDAVG b, c` (41_reduce.md R104). -/
  | rdavg (b c : BitVec 4)
  /-- `ENC b, c, #v` (42_encoder.md R111). -/
  | enc (b c : BitVec 4) (v : Sample)
  /-- `SEQ` (43_sequencer.md R120). -/
  | seq
deriving DecidableEq, Repr

/-- The port an operation is presented on: what stands for a privilege mode in this block (00_scope.md R17;
60_exceptions.md R138). -/
def Instr.port : Instr → Port
  | .nop p => p
  | .wr _ _ _ => .w
  | .adv => .w
  | .tick => .w
  | .red => .w
  | .rdavg _ _ => .r
  | .enc _ _ _ => .r
  | .seq => .r

/-- The name of the operation (00_scope.md R16). -/
def Instr.mnemonic : Instr → String
  | .nop _ => "NOP"
  | .wr _ _ _ => "WR"
  | .adv => "ADV"
  | .tick => "TICK"
  | .red => "RED"
  | .rdavg _ _ => "RDAVG"
  | .enc _ _ _ => "ENC"
  | .seq => "SEQ"

end Sys2Proof
end

