-- ==== Sys2Proof/Machine/State.lean ====
section
/-! DEFINITION. The state of the block as plain data: `BUF`, `CUR`, `AVG`, `SEQ` (10_state.md section 1), the output
records, the stores a reduce still owes under `Slot` granularity, the inputs, and the configuration. -/

namespace Sys2Proof.Machine

/-- `SEQ`, the sequencer state (10_state.md R24). -/
inductive SeqState where
  | idle
  | sending (k : CellId)
deriving DecidableEq, Repr

/-- A telemetry frame: exactly 3 bytes (30_encoding.md R63). -/
structure Frame where
  byte0 : Byte
  byte1 : Byte
  byte2 : Byte
deriving DecidableEq, Repr

/-- The response to one accepted command word (30_encoding.md R62). -/
structure Response where
  rsp : Word
  err : Bool
deriving DecidableEq, Repr

/-- A point of the total order of 20_memory.md R46 and R47: a word of a port takes effect, or a reduce stores one slot. -/
inductive Turn where
  | port (p : Port)
  | store (k : CellId)
deriving DecidableEq, Repr

/-- What the environment chooses of the total order (20_memory.md R46, R47; log 6). -/
inductive Choice where
  /-- This very point comes next. -/
  | now (t : Turn)
  /-- The next line of a program, on port `p`, comes before the lines after it (30_encoding.md R70). Stores that a reduce
  owes are no lines: any of them may come first. -/
  | line (p : Port)
deriving DecidableEq, Repr

/-- `BUF` as the list of (linear entry address, entry) pairs that differ from `SENTINEL`, addresses strictly rising
(log 13). The unit is one whole 16-bit entry (20_memory.md R40, R41). -/
abbrev Memory := List (Nat × Sample)

/-- The machine. The spec's state is the first four fields; 10_state.md says "Nothing else is state". -/
structure State where
  /-- `BUF` (10_state.md R20). -/
  buf : Memory
  /-- `CUR` (10_state.md R23). -/
  cur : RingIndex
  /-- `AVG`, in the linear order `6*b + c` (10_state.md R22; 00_scope.md R14). -/
  avg : Vector Word 12
  /-- `SEQ` (10_state.md R24). -/
  seq : SeqState
  /-- `TXLOG`, the frames handed to the transmitter, oldest first (00_scope.md R14). -/
  txlog : List Frame
  /-- The responses given on port W, oldest first (30_encoding.md R62). -/
  rspW : List Response
  /-- The responses given on port R, oldest first (30_encoding.md R62). -/
  rspR : List Response
  /-- The slot stores the reduce in progress still owes, under `Slot` (20_memory.md R47). -/
  publishing : List (CellId × Word)
  /-- The reset pin (30_encoding.md R60). -/
  rst : Bool
  /-- Words presented on port W and not yet accepted, oldest first (30_encoding.md R60). -/
  wIn : List Word
  /-- Words presented on port R and not yet accepted, oldest first (30_encoding.md R60). -/
  rIn : List Word
  /-- What the sample port presents at the coming ticks (30_encoding.md R60; 60_exceptions.md R142). -/
  samples : List Samples
  /-- The environment's choice of the coming points of the total order (20_memory.md R46, R47); the model's own field. -/
  turns : List Choice
  /-- How many free values have been drawn; the model's own field (log 8). -/
  draws : Nat
  /-- The parameters, fixed when the block is built (10_state.md R26; log 1). -/
  cfg : Config
deriving DecidableEq, Repr

/-- Faults: there are none. "The block raises no synchronous exception" (60_exceptions.md R130), and the treatments
`fault` and `stuck` are not used anywhere in this hardware (93_implementation_defined.md). -/
inductive Fault where
deriving DecidableEq, Repr

/-- Refusals of the model. -/
inductive Refusal where
  /-- Raised by `exec`'s arm of an instruction without a meaning; safe. No arm of this model raises it. -/
  | notModelled (mnemonic : String)
deriving DecidableEq, Repr

/-- The reset state of a block with the parameters `cfg` (70_reset_and_hazards.md R150; 10_state.md R20, R22, R23, R24):
nothing listed in `BUF`, so every entry reads `SENTINEL`; the inputs are quiet (log 5 to 8, 10, 11). -/
def State.powerOn (cfg : Config) : State :=
  { buf := [], cur := 0#7, avg := Vector.replicate 12 0#32, seq := .idle, txlog := [], rspW := [], rspR := [],
    publishing := [], rst := false, wIn := [], rIn := [], samples := [], turns := [], draws := 0, cfg := cfg }

/-- The machine right after reset (70_reset_and_hazards.md R150). -/
def State.reset : State := State.powerOn standardConfig

end Sys2Proof.Machine
end

