-- ==== Sys2Proof/Machine/Flags.lean ====
section
/-! DEFINITION. The block has no status flags and no condition codes (10_state.md R27). The one status bit it gives is
the `err` bit of a response, which is part of that response and is latched nowhere (30_encoding.md R62; 60_exceptions.md
R131). -/

namespace Sys2Proof.Machine

/-- The response to a word that encodes an operation: `err` = 0 (30_encoding.md R62). -/
def okResponse (rsp : Word) : Response := { rsp := rsp, err := false }

/-- The response to a word that is refused: `err` = 1, `rsp` = 0 (30_encoding.md R62, R68). -/
def errResponse : Response := { rsp := 0#32, err := true }

end Sys2Proof.Machine
end

