-- ==== Sys2Proof/Machine/Operands.lean ====
section
/-! DEFINITION. Operand forms: cell identities (from the fields of a word, in linear order, all twelve), and the
telemetry frame, its assembly and its decoding (30_encoding.md R63, R65, R66). -/

namespace Sys2Proof.Machine

/-- The linear cell number `6*b + c` (00_scope.md R14; D22). -/
def cellLin (k : CellId) : Fin 12 := ⟨6 * k.b.val + k.c.val, by omega⟩

/-- The linear entry address `128*(6*b + c) + i` (20_memory.md R40; D22). -/
def entryAddr (k : CellId) (i : RingIndex) : Nat := capacity * (cellLin k).val + i.toNat

/-- The twelve cell identities in linear order. -/
def allCells : List CellId :=
  [⟨0, 0⟩, ⟨0, 1⟩, ⟨0, 2⟩, ⟨0, 3⟩, ⟨0, 4⟩, ⟨0, 5⟩, ⟨1, 0⟩, ⟨1, 1⟩, ⟨1, 2⟩, ⟨1, 3⟩, ⟨1, 4⟩, ⟨1, 5⟩]

/-- The cell identity in the fields `b` and `c` of a word, where they are legal (30_encoding.md R61). -/
def cellOf (b c : BitVec 4) : Option CellId :=
  if hb : b.toNat < 2 then
    if hc : c.toNat < 6 then some ⟨⟨b.toNat, hb⟩, ⟨c.toNat, hc⟩⟩ else none
  else none

/-- The field `b` of a cell identity. -/
def battBits (k : CellId) : BitVec 4 := BitVec.ofNat 4 k.b.val

/-- The field `c` of a cell identity. -/
def cellBits (k : CellId) : BitVec 4 := BitVec.ofNat 4 k.c.val

/-- `v[15:8]` (00_scope.md R13). -/
def highByte (v : Sample) : Byte := v.extractLsb' 8 8

/-- `v[7:0]` (00_scope.md R13). -/
def lowByte (v : Sample) : Byte := v.extractLsb' 0 8

/-- `AVG[b][c][15:0]`, the voltage code of a slot (30_encoding.md R65; 42_encoder.md R114). -/
def voltageCode (slot : Word) : Sample := slot.extractLsb' 0 16

/-- `encode(b, c, v)` = `[(b << 4) | c, v[15:8], v[7:0]]` (42_encoder.md R110). -/
def encodeFrame (k : CellId) (v : Sample) : Frame :=
  { byte0 := ((battBits k).setWidth 8 <<< 4) ||| (cellBits k).setWidth 8
    byte1 := highByte v
    byte2 := lowByte v }

/-- A frame as one 24-bit number, `{byte0, byte1, byte2}` (30_encoding.md R63). -/
def frameBits (f : Frame) : BitVec 24 :=
  (f.byte0.setWidth 24 <<< 16) ||| (f.byte1.setWidth 24 <<< 8) ||| f.byte2.setWidth 24

/-- A frame as a response word, `{0x00, byte0, byte1, byte2}` (30_encoding.md R62). -/
def frameWord (f : Frame) : Word := (frameBits f).setWidth 32

/-- What a receiver reads from a frame (30_encoding.md R66): the nibbles of byte 0, and `(byte1 << 8) | byte2`. -/
def decodeFrame (f : Frame) : BitVec 4 × BitVec 4 × Sample :=
  (f.byte0.extractLsb' 4 4, f.byte0.extractLsb' 0 4, (f.byte1.setWidth 16 <<< 8) ||| f.byte2.setWidth 16)

end Sys2Proof.Machine
end

