-- ==== Sys2Proof/Machine/Ops.lean ====
section
/-! DEFINITION. The shared operations: reading and writing `BUF` and `AVG`, the cursor, the sequencer, responses, frames,
the sample port, the reduce, and the turning away of a word that encodes no operation. -/

namespace Sys2Proof.Machine

/-- The entry at an address: the listed one, or `unlisted` (what `BUF` was filled with at reset, 10_state.md R20). -/
def Memory.read (unlisted : Sample) : Memory → Nat → Sample
  | [], _ => unlisted
  | (x, v) :: m, a => if x = a then v else Memory.read unlisted m a

/-- The list with `v` listed at the address `a`, addresses still rising. -/
def Memory.insert : Memory → Nat → Sample → Memory
  | [], a, v => [(a, v)]
  | (x, y) :: m, a, v =>
    if a < x then (a, v) :: (x, y) :: m
    else if a = x then (a, v) :: m
    else (x, y) :: Memory.insert m a v

/-- The list with nothing listed at the address `a`. -/
def Memory.erase (m : Memory) (a : Nat) : Memory := m.filter fun e => decide (e.1 ≠ a)

/-- The memory after a write: an entry equal to what an unlisted address reads as is not listed. -/
def Memory.write (unlisted : Sample) (m : Memory) (a : Nat) (v : Sample) : Memory :=
  if v = unlisted then m.erase a else m.insert a v

/-- Every address of the list is above `lo`, and they rise strictly. -/
def Memory.risesAbove : Nat → Memory → Bool
  | _, [] => true
  | lo, (x, _) :: m => decide (lo < x) && Memory.risesAbove x m

/-- The canonical form: addresses strictly rising, inside `BUF`, no entry equal to what an unlisted address reads as. -/
def Memory.wf (unlisted : Sample) (m : Memory) : Bool :=
  (match m with
    | [] => true
    | (x, _) :: rest => Memory.risesAbove x rest) &&
  m.all fun e => decide (e.1 < nCells * capacity) && decide (e.2 ≠ unlisted)

/-- `BufRead(b, c, i)` (00_scope.md R15): one whole 16-bit entry. -/
def State.bufRead (s : State) (k : CellId) (i : RingIndex) : Sample :=
  Memory.read s.cfg.sentinel s.buf (entryAddr k i)

/-- `BufWrite(b, c, i, v)` (00_scope.md R15): one whole 16-bit entry. -/
def State.bufWrite (s : State) (k : CellId) (i : RingIndex) (v : Sample) : State :=
  { s with buf := Memory.write s.cfg.sentinel s.buf (entryAddr k i) v }

/-- One atomic 32-bit load of a slot (20_memory.md R44). -/
def State.readAvg (s : State) (k : CellId) : Word := s.avg.get (cellLin k)

/-- One atomic 32-bit store to a slot (20_memory.md R44). -/
def State.writeAvg (s : State) (k : CellId) (v : Word) : State :=
  { s with avg := s.avg.set (cellLin k).val v (cellLin k).isLt }

/-- `CUR <- (CUR + 1) & 0x7F` (40_buffer_write.md R82, R83). -/
def State.advanceCur (s : State) : State := { s with cur := (s.cur + 1#7) &&& curMask }

/-- `SEQ <- Sending(b, c)` (43_sequencer.md R120). -/
def State.setSending (s : State) (k : CellId) : State := { s with seq := .sending k }

/-- `emit Tx(f)`: `TXLOG <- TXLOG ++ [f]` (00_scope.md R15). -/
def State.emitTx (s : State) (f : Frame) : State := { s with txlog := s.txlog ++ [f] }

/-- A response appears on a port (30_encoding.md R62). -/
def State.respond (s : State) (p : Port) (r : Response) : State :=
  match p with
  | .w => { s with rspW := s.rspW ++ [r] }
  | .r => { s with rspR := s.rspR ++ [r] }

/-- What the block does with a word that encodes no operation: no state changes, the answer is `err` = 1, `rsp` = 0, and
the block goes on (30_encoding.md R68; 60_exceptions.md R131). The block has no exception to take (60_exceptions.md R130,
R135); this stands in its place. -/
def State.turnAway (s : State) (p : Port) : State := s.respond p errResponse

/-- Apply `f` to the cell identity in the fields `b` and `c`; where they name none, the word is turned away
(93_implementation_defined.md U8; log 15). -/
def State.onCell (s : State) (p : Port) (b c : BitVec 4) (f : CellId → State) : State :=
  match cellOf b c with
  | some k => f k
  | none => s.turnAway p

/-- The 12 samples the sample port presents now: the next queued reading, else a free value (60_exceptions.md R142;
93_implementation_defined.md U1). -/
def State.sampleReading (s : State) : Samples := s.samples.headD (Config.freeSamples s.draws)

/-- The state after a tick has read the sample port: the reading is "consumed exactly once per tick"
(40_buffer_write.md R88). -/
def State.consumeSamples (s : State) : State :=
  match s.samples with
  | [] => { s with draws := s.draws + 1 }
  | _ :: rest => { s with samples := rest }

/-- The 12 routed writes of a tick, all at the same index `CUR` (40_buffer_write.md R86). -/
def State.routeSamples (s : State) (x : Samples) : State :=
  channels.foldl (fun t ch => t.bufWrite (routeOf s.cfg ch) s.cur (x.get ch)) s

/-- The 128 entries of a ring, wherever `CUR` is (41_reduce.md R100, R101). -/
def State.ring (s : State) (k : CellId) : List Sample :=
  (List.range capacity).map fun i => s.bufRead k (BitVec.ofNat 7 i)

/-- The sum of a ring's entries, zero-extended, modulo 2^32 (41_reduce.md R100). -/
def State.ringSum (s : State) (k : CellId) : Word :=
  (s.ring k).foldl (fun sum x => sum + x.setWidth 32) 0#32

/-- `sum >> 7`, a logical shift (41_reduce.md R100, R102). -/
def State.average (s : State) (k : CellId) : Word := s.ringSum k >>> log2Cap

/-- The 12 results of a reduce, all computed from one content of `BUF` (41_reduce.md R100; 20_memory.md R47). -/
def State.reduceResults (s : State) : List (CellId × Word) := allCells.map fun k => (k, s.average k)

/-- The slot stores of a list of results. -/
def State.storeAll (s : State) (results : List (CellId × Word)) : State :=
  results.foldl (fun t e => t.writeAvg e.1 e.2) s

/-- `Reduce()` as one indivisible transition (41_reduce.md R100). -/
def State.reduce (s : State) : State := s.storeAll s.reduceResults

/-- The reduce of a write-side operation and the response the operation gives. Under `Tick` both are one point
(20_memory.md R46). Under `Slot` this is the first of 13 points: the results are computed, the stores are owed, and the
response comes with the last store (20_memory.md R47; log 9). -/
def State.reduceAndRespond (s : State) : State :=
  match s.cfg.granularity with
  | .tick => s.reduce.respond .w (okResponse 0#32)
  | .slot => { s with publishing := s.reduceResults }

/-- One store of a reduce in progress: slot `k` takes the value computed at the first point; with the last store the
write-side operation responds (20_memory.md R47). -/
def State.storeSlot (s : State) (k : CellId) : State :=
  match s.publishing.find? fun e => decide (e.1 = k) with
  | none => s
  | some e =>
    let t := { s.writeAvg k e.2 with publishing := s.publishing.filter fun e => decide (e.1 ≠ k) }
    if t.publishing.isEmpty then t.respond .w (okResponse 0#32) else t

/-- Whether the tick that has just advanced the cursor reduces (40_buffer_write.md R86; 00_scope.md R10). -/
def State.reduceDue (s : State) : Bool :=
  match s.cfg.policy with
  | .onWrap => decide (s.cur = 0#7)
  | .everyTick => true

/-- The cell the next `SEQ` sends: cellIndex advances mod 6, batteryIndex mod 2 on its wraparound; (0,0) from `Idle`
(43_sequencer.md R120; D15). -/
def nextCell : SeqState → CellId
  | .idle => ⟨0, 0⟩
  | .sending k => ⟨if k.c + 1 = 0 then k.b + 1 else k.b, k.c + 1⟩

end Sys2Proof.Machine
end

