-- ==== Sys2Proof/Machine/BufferWrite.lean ====
section
/-! DEFINITION. The write-side operations `NOP`, `WR`, `ADV`, `TICK` (40_buffer_write.md). -/

namespace Sys2Proof.Machine

/-- `NOP`: `rsp <- 0` on the port it came by, nothing else (40_buffer_write.md R84). -/
def execNop (p : Port) (s : State) : Host.Outcome State Fault Refusal :=
  .next (s.respond p (okResponse 0#32))

/-- `WR b, c, #d`: `BUF[b][c][CUR] <- d`; `CUR` is not changed (40_buffer_write.md R80). -/
def execWr (b c : BitVec 4) (d : Sample) (s : State) : Host.Outcome State Fault Refusal :=
  .next (s.onCell .w b c fun k => (s.bufWrite k s.cur d).respond .w (okResponse 0#32))

/-- `ADV`: `CUR <- (CUR + 1) & 0x7F`; it never reduces (40_buffer_write.md R82). -/
def execAdv (s : State) : Host.Outcome State Fault Refusal :=
  .next (s.advanceCur.respond .w (okResponse 0#32))

/-- What a tick does before its reduce: read the sample port, the 12 routed writes, the advance (40_buffer_write.md R86). -/
def State.sampleAndAdvance (s : State) : State := (s.consumeSamples.routeSamples s.sampleReading).advanceCur

/-- `TICK`: sample, write, advance, then the reduce if the policy asks for it (40_buffer_write.md R86). -/
def execTick (s : State) : Host.Outcome State Fault Refusal :=
  .next (if s.sampleAndAdvance.reduceDue then s.sampleAndAdvance.reduceAndRespond
    else s.sampleAndAdvance.respond .w (okResponse 0#32))

end Sys2Proof.Machine
end

