-- ==== Sys2Proof/Machine/Encoder.lean ====
section
/-! DEFINITION. The telemetry frame encoder's operation `ENC` (42_encoder.md). -/

namespace Sys2Proof.Machine

/-- `ENC b, c, #v`: `rsp <- {0x00, f[0], f[1], f[2]}` of `encode(b, c, v)`; nothing is emitted (42_encoder.md R111). -/
def execEnc (b c : BitVec 4) (v : Sample) (s : State) : Host.Outcome State Fault Refusal :=
  .next (s.onCell .r b c fun k => s.respond .r (okResponse (frameWord (encodeFrame k v))))

end Sys2Proof.Machine
end

