-- ==== Sys2Proof/Machine/Reduce.lean ====
section
/-! DEFINITION. The averaging-reduce unit's operations `RED` and `RDAVG` (41_reduce.md). -/

namespace Sys2Proof.Machine

/-- `RED`: `Reduce()`, whatever the policy (41_reduce.md R103). -/
def execRed (s : State) : Host.Outcome State Fault Refusal := .next s.reduceAndRespond

/-- `RDAVG b, c`: `rsp <- AVG[b][c]`, one atomic load; no state is changed (41_reduce.md R104). -/
def execRdavg (b c : BitVec 4) (s : State) : Host.Outcome State Fault Refusal :=
  .next (s.onCell .r b c fun k => s.respond .r (okResponse (s.readAvg k)))

end Sys2Proof.Machine
end

