-- ==== Sys2Proof/Machine/Sequencer.lean ====
section
/-! DEFINITION. The read-side sequencer's operation `SEQ` (43_sequencer.md). -/

namespace Sys2Proof.Machine

/-- The frame the next `SEQ` builds: the next cell, and the low 16 bits of one atomic load of its slot
(43_sequencer.md R120). -/
def State.nextFrame (s : State) : Frame :=
  encodeFrame (nextCell s.seq) (voltageCode (s.readAvg (nextCell s.seq)))

/-- `SEQ`: advance to the next cell, emit its frame and answer it (43_sequencer.md R120). -/
def execSeq (s : State) : Host.Outcome State Fault Refusal :=
  .next (((s.setSending (nextCell s.seq)).emitTx s.nextFrame).respond .r (okResponse (frameWord s.nextFrame)))

end Sys2Proof.Machine
end

