-- ==== Sys2Proof/Machine/Dispatch.lean ====
section
/-! DEFINITION. One arm per operation. -/

namespace Sys2Proof.Machine

def exec (i : Instr) (s : State) : Host.Outcome State Fault Refusal :=
  match i with
  | .nop p => Sys2Proof.Machine.execNop p s
  | .wr b c d => Sys2Proof.Machine.execWr b c d s
  | .adv => Sys2Proof.Machine.execAdv s
  | .tick => Sys2Proof.Machine.execTick s
  | .red => Sys2Proof.Machine.execRed s
  | .rdavg b c => Sys2Proof.Machine.execRdavg b c s
  | .enc b c v => Sys2Proof.Machine.execEnc b c v s
  | .seq => Sys2Proof.Machine.execSeq s

end Sys2Proof.Machine
end

