-- ==== Sys2Proof/WellFormed.lean ====
section
/-! DEFINITION. Which operations are well formed: the two operand checks of the spec, batteryIndex ≤ 1 and
cellIndex ≤ 5 (30_encoding.md R61, R67, R68). -/

namespace Sys2Proof

/-- batteryIndex is 0 or 1 (30_encoding.md R61). -/
def battOk (b : BitVec 4) : Bool := decide (b.toNat ≤ 1)

/-- cellIndex is 0 to 5 (30_encoding.md R61, R67 "extra condition"). -/
def cellOk (c : BitVec 4) : Bool := decide (c.toNat ≤ 5)

/-- The operand fields of the operation are legal. -/
def Instr.wellFormed : Instr → Bool
  | .nop _ => true
  | .wr b c _ => battOk b && cellOk c
  | .adv => true
  | .tick => true
  | .red => true
  | .rdavg b c => battOk b && cellOk c
  | .enc b c _ => battOk b && cellOk c
  | .seq => true

end Sys2Proof
end

