-- ==== Sys2Proof/Decode.lean ====
section
/-! DEFINITION. The command word: its fields, the decoder (total, rejecting by name), the encoder, and the opcode map
of 30_encoding.md R67 as a table of match and mask. -/

namespace Sys2Proof

/-- Bits 31:28, the opcode (30_encoding.md R61). -/
def opField (w : Word) : BitVec 4 := w.extractLsb' 28 4

/-- Bits 27:24, which must be 0 (R61). -/
def zField (w : Word) : BitVec 4 := w.extractLsb' 24 4

/-- Bits 23:20, batteryIndex (R61, R65). -/
def bField (w : Word) : BitVec 4 := w.extractLsb' 20 4

/-- Bits 19:16, cellIndex (R61, R65). -/
def cField (w : Word) : BitVec 4 := w.extractLsb' 16 4

/-- Bits 15:0, the 16-bit data (R61, R65). -/
def dField (w : Word) : Sample := w.extractLsb' 0 16

/-- Why a command word encodes no operation (30_encoding.md R68). A word with several defects is named by the first one
the decoder looks at (log 19); the block answers all of them alike. -/
inductive Reject where
  /-- `op` in 0x8..0xF. -/
  | reservedOpcode
  /-- `z` ≠ 0. -/
  | reservedBits
  /-- A non-zero value in a field the operation does not use. -/
  | unusedField
  /-- `b` > 1 or `c` > 5. -/
  | cellIdentity
  /-- A write-side opcode on port R or a read-side opcode on port W. -/
  | wrongPort
deriving DecidableEq, Repr

/-- The operation `i`, if the word arrived on the port `want` that owns it (60_exceptions.md R138). -/
def onPort (want p : Port) (r : Except Reject Instr) : Except Reject Instr :=
  if p = want then r else .error .wrongPort

/-- The operation `i` without operands, if the fields `b`, `c` and `d` are 0 (30_encoding.md R61). -/
def ifBare (w : Word) (i : Instr) : Except Reject Instr :=
  if bField w = 0#4 ∧ cField w = 0#4 ∧ dField w = 0#16 then .ok i else .error .unusedField

/-- The operation `i` with a cell identity, if the identity is legal. -/
def ifCell (i : Instr) : Except Reject Instr :=
  if i.wellFormed then .ok i else .error .cellIdentity

/-- The operation that the command word `w` selects on port `p` (30_encoding.md R67), or why it selects none (R68). -/
def decode (p : Port) (w : Word) : Except Reject Instr :=
  if zField w ≠ 0#4 then .error .reservedBits else
  match (opField w).toNat with
  | 0 => ifBare w (.nop p)
  | 1 => onPort .w p (ifCell (.wr (bField w) (cField w) (dField w)))
  | 2 => onPort .w p (ifBare w .adv)
  | 3 => onPort .w p (ifBare w .tick)
  | 4 => onPort .w p (ifBare w .red)
  | 5 => onPort .r p (if dField w = 0#16 then ifCell (.rdavg (bField w) (cField w)) else .error .unusedField)
  | 6 => onPort .r p (ifCell (.enc (bField w) (cField w) (dField w)))
  | 7 => onPort .r p (ifBare w .seq)
  | _ => .error .reservedOpcode

/-- A command word from its fields, `op << 28 | b << 20 | c << 16 | d`, `z` being 0 (30_encoding.md R61, R67). -/
def commandWord (op b c : BitVec 4) (d : Sample) : Word :=
  (op.setWidth 32 <<< 28) ||| (b.setWidth 32 <<< 20) ||| (c.setWidth 32 <<< 16) ||| d.setWidth 32

/-- The command word of an operation (30_encoding.md R67). -/
def encode : Instr → Word
  | .nop _ => commandWord 0x0#4 0#4 0#4 0#16
  | .wr b c d => commandWord 0x1#4 b c d
  | .adv => commandWord 0x2#4 0#4 0#4 0#16
  | .tick => commandWord 0x3#4 0#4 0#4 0#16
  | .red => commandWord 0x4#4 0#4 0#4 0#16
  | .rdavg b c => commandWord 0x5#4 b c 0#16
  | .enc b c v => commandWord 0x6#4 b c v
  | .seq => commandWord 0x7#4 0#4 0#4 0#16

/-- One row of the opcode map (30_encoding.md R67). -/
structure OpRow where
  mnemonic : String
  ports : List Port
  pattern : Word
  mask : Word
  /-- The row's extra condition `c` ≤ 5. -/
  cellChecked : Bool
deriving DecidableEq, Repr

/-- "A word `w` selects a row when `w & mask = match`, the extra condition holds, and the word arrives on a port the row
lists" (30_encoding.md R67). -/
def OpRow.selects (row : OpRow) (p : Port) (w : Word) : Bool :=
  decide (w &&& row.mask = row.pattern) && row.ports.contains p && (!row.cellChecked || cellOk (cField w))

/-- The opcode map, transcribed from 30_encoding.md R67. The decoder does not use it: that the two agree is a statement. -/
def opcodeRows : List OpRow :=
  [⟨"NOP", [.w, .r], 0x00000000#32, 0xFFFFFFFF#32, false⟩,
   ⟨"WR", [.w], 0x10000000#32, 0xFFE80000#32, true⟩,
   ⟨"ADV", [.w], 0x20000000#32, 0xFFFFFFFF#32, false⟩,
   ⟨"TICK", [.w], 0x30000000#32, 0xFFFFFFFF#32, false⟩,
   ⟨"RED", [.w], 0x40000000#32, 0xFFFFFFFF#32, false⟩,
   ⟨"RDAVG", [.r], 0x50000000#32, 0xFFE8FFFF#32, true⟩,
   ⟨"ENC", [.r], 0x60000000#32, 0xFFE80000#32, true⟩,
   ⟨"SEQ", [.r], 0x70000000#32, 0xFFFFFFFF#32, false⟩]

/-- The port that owns the opcode of a word: W for opcodes 0 to 4, R for the others (30_encoding.md R67). -/
def portOfWord (w : Word) : Port := if (opField w).toNat ≤ 4 then .w else .r

/-- The operation the decoder reads from a row's word, presented on the port that owns its opcode: bit 0 is the least
significant bit of the word, bits from `nbits` up are 0. -/
def decodeTableWord (nbits w : Nat) : Option Instr :=
  let x : Word := BitVec.ofNat 32 (w % 2 ^ nbits)
  (decode (portOfWord x) x).toOption

end Sys2Proof
end

