-- ==== Sys2Proof/Machine/Ports.lean ====
section
/-! DEFINITION. The block's signals (30_encoding.md R60): what each port presents, when it is ready, which point of the
total order comes next (20_memory.md R46, R47), the reset event, the transmit port. -/

namespace Sys2Proof.Machine

/-- The words presented on a port and not yet accepted. -/
def State.portIn (s : State) : Port → List Word
  | .w => s.wIn
  | .r => s.rIn

/-- Present these words on a port instead. -/
def State.setPortIn (s : State) (p : Port) (ws : List Word) : State :=
  match p with
  | .w => { s with wIn := ws }
  | .r => { s with rIn := ws }

/-- The responses given on a port, oldest first. -/
def State.responses (s : State) : Port → List Response
  | .w => s.rspW
  | .r => s.rspR

/-- "A port's `ready` is low while an earlier operation of that port has not yet responded, and during reset"
(30_encoding.md R60). Only a reduce under `Slot`, on port W, is ever part way (20_memory.md R47). -/
def State.ready (s : State) : Port → Bool
  | .w => !s.rst && s.publishing.isEmpty
  | .r => !s.rst

/-- A point of the total order that can come next. -/
def State.possible (s : State) : Turn → Bool
  | .port p => s.ready p && !(s.portIn p).isEmpty
  | .store k => s.publishing.any fun e => decide (e.1 = k)

/-- All the points that can come next. -/
def State.candidates (s : State) : List Turn :=
  [Turn.port .w, Turn.port .r].filter s.possible ++ s.publishing.map fun e => Turn.store e.1

/-- The points that can come next where the next line of a program is on port `p`: that line, if the port is ready, and
every store that a reduce owes (30_encoding.md R70; 20_memory.md R47). -/
def State.lineCandidates (s : State) (p : Port) : List Turn :=
  [Turn.port p].filter s.possible ++ s.publishing.map fun e => Turn.store e.1

/-- One of these points: the only one there is, else a free choice among them (93_implementation_defined.md U13, U14),
with the state after the choice. -/
def State.pick (s : State) : List Turn → Option (Turn × State)
  | [] => none
  | [t] => some (t, s)
  | t :: u :: rest =>
    some ((t :: u :: rest).getD (Config.freeIndex s.draws % (rest.length + 2)) t, { s with draws := s.draws + 1 })

/-- The next point where the next line of a program is on port `p` and the choices `cs` follow: the line, which uses its
choice up, or a store that a reduce owes, which leaves the line the next one. -/
def State.lineTurn (s : State) (p : Port) (cs : List Choice) : Option (Turn × State) :=
  (s.pick (s.lineCandidates p)).map fun e =>
    (e.1, { e.2 with turns := if e.1 = .port p then cs else .line p :: cs })

/-- The next point by the first of these choices that can be met, else a free choice among all. A point that cannot come
next, and a line with no word waiting, are passed over (log 6). -/
def State.turnBy (s : State) : List Choice → Option (Turn × State)
  | [] => { s with turns := [] }.pick s.candidates
  | .now t :: cs => if s.possible t then some (t, { s with turns := cs }) else s.turnBy cs
  | .line p :: cs => if (s.portIn p).isEmpty then s.turnBy cs else s.lineTurn p cs

/-- The next point of the total order (20_memory.md R46, R47), as the environment chooses it. -/
def State.nextTurn (s : State) : Option (Turn × State) := s.turnBy s.turns

/-- The reset event (70_reset_and_hazards.md R150): the block takes the reset state, no operation is in progress and none
is pending. The pulse on the pin is over; the parameters and the environment's own data stay (log 10). -/
def State.assertReset (s : State) : State :=
  { State.powerOn s.cfg with samples := s.samples, turns := s.turns, draws := s.draws }

/-- One pulse of the transmit port (30_encoding.md R60). -/
structure TxPulse where
  frame : BitVec 24
  dest : Nat
deriving DecidableEq, Repr

/-- What the transmit port has carried: one pulse per `SEQ`, with the constant `TX_DEST` (60_exceptions.md R143). -/
def State.txPulses (s : State) : List TxPulse :=
  s.txlog.map fun f => { frame := frameBits f, dest := s.cfg.txDest }

/-- The state in which `w` is the word that is accepted next, on port `p` (log 21): it is first on its port, the
environment's next choice is that port, and the port is ready: the reset pin is low, and for port W no reduce is part way. -/
def State.presentNext (s : State) (p : Port) (w : Word) : State :=
  { s.setPortIn p (w :: s.portIn p) with
    turns := .now (.port p) :: s.turns
    publishing := if p = .w then [] else s.publishing
    rst := false }

end Sys2Proof.Machine
end

