-- ==== Sys2Proof/Machine/Step.lean ====
section
/-! DEFINITION. One step of the block: one point of the total order of 20_memory.md R46 and R47. -/

namespace Sys2Proof.Machine

/-- A port accepts a word and it takes effect (30_encoding.md R60, R68): the operation it encodes is carried out, or it is
turned away. -/
def accept (s : State) (p : Port) : Host.Outcome State Fault Refusal :=
  match s.portIn p with
  | [] => .next s
  | w :: ws =>
    match decode p w with
    | .ok i => exec i (s.setPortIn p ws)
    | .error _ => .next ((s.setPortIn p ws).turnAway p)

/-- A point of the total order takes place. -/
def takeTurn (s : State) : Turn → Host.Outcome State Fault Refusal
  | .port p => accept s p
  | .store k => .next (s.storeSlot k)

/-- One step: the reset event if the pin is high; else the next point of the total order; else nothing, for nothing is
presented. -/
def step (s : State) : Host.Outcome State Fault Refusal :=
  if s.rst then .next s.assertReset
  else
    match s.nextTurn with
    | none => .next s
    | some (t, s') => takeTurn s' t

/-- `s` with the word of a row of the opcode table presented so that the very next step accepts it, on the port that owns
its opcode (log 14, log 21). -/
def State.withFetchWord (s : State) (nbits w : Nat) : State :=
  s.presentNext (portOfWord (BitVec.ofNat 32 (w % 2 ^ nbits))) (BitVec.ofNat 32 (w % 2 ^ nbits))

end Sys2Proof.Machine
end

