-- ==== Sys2Proof/Machine/Program.lean ====
section
/-! DEFINITION. Programs as data: lines of program text, each on its port (30_encoding.md R70), the pseudo-operations
(R71), and how the two agents present a program to the block (70_reset_and_hazards.md R166). -/

namespace Sys2Proof.Machine

/-- One line: an operation, or a `TICK` with the 12 samples of that tick (30_encoding.md R70). -/
inductive Line where
  | op (i : Instr)
  | tick (x : Samples)
deriving DecidableEq, Repr

/-- The operation of a line. -/
def Line.instr : Line → Instr
  | .op i => i
  | .tick _ => .tick

/-- The samples a line lists. -/
def Line.samples : Line → List Samples
  | .op _ => []
  | .tick x => [x]

/-- `TICKALL #x`: the same sample on all 12 channels (30_encoding.md R71). -/
def tickAll (x : Sample) : List Line := [.tick (Vector.replicate 12 x)]

/-- `WRADV b, c, #d`: `WR b, c, #d` then `ADV` (30_encoding.md R71). -/
def wrAdv (b c : BitVec 4) (d : Sample) : List Line := [.op (.wr b c d), .op .adv]

/-- `TICKn n, s0, ..., s11`: `n` copies of `TICK s0, ..., s11` (30_encoding.md R71). -/
def tickN (n : Nat) (x : Samples) : List Line := List.replicate n (.tick x)

/-- `SEQn n`: `n` copies of `SEQ` (30_encoding.md R71). -/
def seqN (n : Nat) : List Line := List.replicate n (.op .seq)

/-- The words a program presents on a port, in order. -/
def wordsFor (p : Port) (prog : List Line) : List Word :=
  (prog.filter fun l => decide (l.instr.port = p)).map fun l => encode l.instr

/-- The agents present a program: each port its words, the sample port the samples of the ticks, and the order of the lines
as the order in which they take effect (30_encoding.md R70: "The order of lines is the total order"). The stores of a reduce
under `Slot` are no lines: they fall anywhere among the port R lines that follow it and all before the next port W line
(20_memory.md R47; log 6, log 14). -/
def State.present (s : State) (prog : List Line) : State :=
  { s with
    wIn := s.wIn ++ wordsFor .w prog
    rIn := s.rIn ++ wordsFor .r prog
    samples := s.samples ++ prog.flatMap Line.samples
    turns := s.turns ++ prog.map fun l => Choice.line l.instr.port }

/-- The port prefix of a line (30_encoding.md R70). -/
def portText : Port → String
  | .w => "W: "
  | .r => "R: "

/-- The operands of a line, unsigned and decimal (30_encoding.md R70). -/
def operandText : Instr → String
  | .nop _ => ""
  | .wr b c d => " " ++ toString b.toNat ++ ", " ++ toString c.toNat ++ ", #" ++ toString d.toNat
  | .adv => ""
  | .tick => ""
  | .red => ""
  | .rdavg b c => " " ++ toString b.toNat ++ ", " ++ toString c.toNat
  | .enc b c v => " " ++ toString b.toNat ++ ", " ++ toString c.toNat ++ ", #" ++ toString v.toNat
  | .seq => ""

/-- A line as program text (30_encoding.md R70). -/
def lineText : Line → String
  | .op i => portText i.port ++ i.mnemonic ++ operandText i
  | .tick x => portText .w ++ "TICK " ++ ", ".intercalate (x.toList.map fun d => toString d.toNat)

end Sys2Proof.Machine
end

