-- ==== Sys2Proof/Safety.lean ====
section
/-! DEFINITION. The terms the statements use: sequences of operations, what one response adds, the mean of a ring in
natural numbers, the invariant of every run, the environment contract `EC1`. -/

namespace Sys2Proof.Machine

/-- Carry out a finite sequence of operations in order (70_reset_and_hazards.md R166: "A run ... is a finite sequence of
operations ... from a stated state"), stopping where one stops. -/
def execAll : List Instr → State → Host.Outcome State Fault Refusal
  | [], s => .next s
  | i :: rest, s =>
    match exec i s with
    | .next t => execAll rest t
    | .fault f => .fault f
    | .refused r => .refused r

/-- From `s` to `t` exactly one response has been given, `r`, on port `p`. -/
def Answered (p : Port) (r : Response) (s t : State) : Prop :=
  t.responses p = s.responses p ++ [r] ∧ ∀ q, q ≠ p → t.responses q = s.responses q

/-- Every entry of `BUF` reads as before. -/
def SameBuf (s t : State) : Prop := ∀ k i, t.bufRead k i = s.bufRead k i

/-- Every slot of `AVG` reads as before. -/
def SameAvg (s t : State) : Prop := ∀ k, t.readAvg k = s.readAvg k

/-- The block's own state is the same: `BUF`, `CUR`, `AVG`, `SEQ`, `TXLOG`, and the stores owed. -/
def SameBlock (s t : State) : Prop :=
  SameBuf s t ∧ t.cur = s.cur ∧ SameAvg s t ∧ t.seq = s.seq ∧ t.txlog = s.txlog ∧ t.publishing = s.publishing

/-- The sum of the 128 entries of a ring, as a natural number (41_reduce.md R102 (b)). -/
def State.ringTotal (s : State) (k : CellId) : Nat :=
  ((List.range 128).map fun i => (s.bufRead k (BitVec.ofNat 7 i)).toNat).sum

/-- What holds in every state of a run: the parameters are legal, `BUF` is in its canonical form, no slot and no value
still to be stored exceeds 16 bits (10_state.md R22), and stores are owed once each and only under `Slot`
(20_memory.md R47). -/
structure State.Inv (s : State) : Prop where
  legal_cfg : s.cfg.wf
  canonical : Memory.wf s.cfg.sentinel s.buf = true
  slots_fit : ∀ k, (s.readAvg k).toNat < 2 ^ 16
  owed_fit : ∀ e ∈ s.publishing, e.2.toNat < 2 ^ 16
  owed_once : (s.publishing.map fun e => e.1).Nodup
  owed_slot : s.publishing ≠ [] → s.cfg.granularity = .slot

/-- The environment contract `EC1`: every sample is below 2^12 (60_exceptions.md R142). The block neither checks nor needs
it. -/
def EC1 (x : Samples) : Prop := ∀ ch : Fin 12, (x.get ch).toNat < 4096

end Sys2Proof.Machine
end

