-- ==== Sys2Proof/Certificates/Slice0/Obligations.lean ====
section
/-! DEFINITION. The statements for the provers. In a frame, `t = { s with f := t.f, … }` says that every field of the state
but the named ones is unchanged. -/

open Sys2Proof Sys2Proof.Machine

/-! ### The write side -/

/-- 40_buffer_write.md R80. The word of `WR b, c, #d` is `0x10000000 | b << 20 | c << 16 | d`. It stores `d` in the entry `BUF[b][c][CUR]`, answers 0, and changes nothing else:
no other entry, not `CUR`, not `AVG`, not `SEQ`. It completes in every state, for every legal cell identity. -/
def Obligations.WrStoresOneEntryAtTheCursor : Prop :=
  ∀ (s : State) (b c : BitVec 4) (d : Sample) (k : CellId), b.toNat = k.b.val → c.toNat = k.c.val →
    (encode (.wr b c d)).toNat = 0x10000000 + b.toNat * 2 ^ 20 + c.toNat * 2 ^ 16 + d.toNat ∧
    ∃ t, exec (.wr b c d) s = .next t ∧
      t.bufRead k s.cur = d ∧
      (∀ k' i, (k', i) ≠ (k, s.cur) → t.bufRead k' i = s.bufRead k' i) ∧
      SameAvg s t ∧
      Answered .w (okResponse 0#32) s t ∧
      t = { s with buf := t.buf, rspW := t.rspW }

/-- 40_buffer_write.md section 3 (the spec's decision D3). `NOP` answers 0 on the port it came by and changes nothing. -/
def Obligations.NopAnswersZeroAndChangesNothing : Prop :=
  ∀ (s : State) (p : Port), ∃ t, exec (.nop p) s = .next t ∧
    Answered p (okResponse 0#32) s t ∧ SameBuf s t ∧ SameAvg s t ∧
    t = { s with rspW := t.rspW, rspR := t.rspR }

/-- 40_buffer_write.md section 2 (with the spec's decision D10: it never reduces). `ADV` moves the cursor by one, 127 to 0,
answers 0, and changes nothing else. -/
def Obligations.AdvMovesTheCursorByOne : Prop :=
  ∀ s : State, ∃ t, exec .adv s = .next t ∧
    t.cur.toNat = (s.cur.toNat + 1) % 128 ∧
    SameBuf s t ∧ SameAvg s t ∧
    Answered .w (okResponse 0#32) s t ∧
    t = { s with cur := t.cur, rspW := t.rspW }

/-- 40_buffer_write.md section 5 (with the spec's decisions D8, D12). `TICK` puts the sample of each channel in the entry at
the old cursor of the cell the channel is routed to, whatever the samples are, changes no other entry, then moves the cursor
by one; it consumes one reading of the sample port, and touches neither `SEQ`, nor the frames, nor port R. The reading may be
a free value (log 7): this holds for every reading. -/
def Obligations.TickWritesEverySampleAndAdvances : Prop :=
  ∀ s : State, s.cfg.wf → ∃ t, exec .tick s = .next t ∧
    (∀ ch, t.bufRead (routeOf s.cfg ch) s.cur = s.sampleReading.get ch) ∧
    (∀ k i, i ≠ s.cur → t.bufRead k i = s.bufRead k i) ∧
    t.cur.toNat = (s.cur.toNat + 1) % 128 ∧
    (∀ x rest, s.samples = x :: rest → s.sampleReading = x ∧ t.samples = rest ∧ t.draws = s.draws) ∧
    (s.samples = [] → t.samples = [] ∧ t.draws = s.draws + 1) ∧
    t = { s with buf := t.buf, cur := t.cur, avg := t.avg, publishing := t.publishing, rspW := t.rspW,
                 samples := t.samples, draws := t.draws }

/-- 40_buffer_write.md section 5, 20_memory.md section 3 (with the spec's decisions D10, D13). A `TICK` reduces exactly when
the policy is `EveryTick` or it wrote index 127. When it does not, no slot changes and it answers 0. When it does, under
`Tick` every slot takes the floor mean of its ring with the new entries in it, and it answers 0; under `Slot` the same 12
values are owed, no slot has changed yet, and the answer is still to come (log 9). -/
def Obligations.TickReducesByThePolicy : Prop :=
  ∀ s : State, ∃ t, exec .tick s = .next t ∧
    (¬(s.cfg.policy = .everyTick ∨ s.cur = 127#7) →
      SameAvg s t ∧ t.publishing = s.publishing ∧ Answered .w (okResponse 0#32) s t) ∧
    ((s.cfg.policy = .everyTick ∨ s.cur = 127#7) → s.cfg.granularity = .tick →
      (∀ k, (t.readAvg k).toNat = t.ringTotal k / 128) ∧ t.publishing = s.publishing ∧
        Answered .w (okResponse 0#32) s t) ∧
    ((s.cfg.policy = .everyTick ∨ s.cur = 127#7) → s.cfg.granularity = .slot →
      SameAvg s t ∧ t.publishing.map Prod.fst = allCells ∧
        (∀ e ∈ t.publishing, e.2.toNat = t.ringTotal e.1 / 128) ∧ t.rspW = s.rspW ∧ t.rspR = s.rspR)

/-- 40_buffer_write.md section 5 (derived there). A `TICK` has the same effect on the block as its 12 `WR`, in any order,
then `ADV`, then `RED` if the policy asks for a reduce. -/
def Obligations.TickIsTwelveWritesThenAdvanceThenReduce : Prop :=
  ∀ (s : State) (order : List (Fin 12)), s.cfg.wf → order.Perm channels →
    ∃ t u, exec .tick s = .next t ∧
      execAll ((order.map fun ch => Instr.wr (battBits (routeOf s.cfg ch)) (cellBits (routeOf s.cfg ch))
            (s.sampleReading.get ch)) ++ [.adv] ++
          (if s.cfg.policy = .everyTick ∨ s.cur = 127#7 then [.red] else [])) s = .next u ∧
      SameBlock t u

/-- 41_reduce.md section 3 (with the spec's decision D13 for `Slot`). `RED` reduces whatever the policy: under `Tick` every slot takes the floor of the mean of its 128
entries and it answers 0; under `Slot` it owes the 12 stores of those values, and nothing else has changed yet (the answer
comes with the last store, log 9). `BUF`, `CUR` and `SEQ` are unchanged. Right after reset the value is `SENTINEL` in every
slot, and a second `RED` gives the same values. -/
def Obligations.RedStoresTheFloorMeanOfEveryRing : Prop :=
  (∀ s : State, ∃ t, exec .red s = .next t ∧ SameBuf s t ∧
    (s.cfg.granularity = .tick →
      (∀ k, (t.readAvg k).toNat = s.ringTotal k / 128) ∧ Answered .w (okResponse 0#32) s t ∧
        t = { s with avg := t.avg, rspW := t.rspW } ∧
        ∃ u, exec .red t = .next u ∧ u.avg = t.avg) ∧
    (s.cfg.granularity = .slot →
      t.publishing.map Prod.fst = allCells ∧ (∀ e ∈ t.publishing, e.2.toNat = s.ringTotal e.1 / 128) ∧
        t = { s with publishing := t.publishing })) ∧
  (∀ cfg : Config, ∀ k, ((State.powerOn cfg).average k).toNat = cfg.sentinel.toNat)

/-- 41_reduce.md R101, section 1. The reduce sums all 128 entries of a ring wherever the cursor is, an unwritten entry
counting as the number `SENTINEL`, each zero-extended: a ring whose entries are `SENTINEL` but for the ones in `written`
(index and sample, each index once) averages to the floor of their sum and the sentinels' by 128. -/
def Obligations.UnwrittenEntriesCountAsSentinel : Prop :=
  ∀ (s : State) (k : CellId) (written : List (RingIndex × Sample)), (written.map Prod.fst).Nodup →
    (∀ e ∈ written, s.bufRead k e.1 = e.2) →
    (∀ i, i ∉ written.map Prod.fst → s.bufRead k i = s.cfg.sentinel) →
    (s.average k).toNat =
      ((written.map fun e => e.2.toNat).sum + (128 - written.length) * s.cfg.sentinel.toNat) / 128

/-! ### The read side -/

/-- 41_reduce.md section 4. `RDAVG b, c` answers all 32 bits of the slot and changes nothing; the value is below 2^16 in every
state of a run, and 0 after reset. -/
def Obligations.RdavgAnswersTheSlot : Prop :=
  ∀ (s : State) (b c : BitVec 4) (k : CellId), b.toNat = k.b.val → c.toNat = k.c.val →
    (∃ t, exec (.rdavg b c) s = .next t ∧ Answered .r (okResponse (s.readAvg k)) s t ∧ SameBuf s t ∧ SameAvg s t ∧
      t = { s with rspR := t.rspR }) ∧
    (s.Inv → (s.readAvg k).toNat < 2 ^ 16) ∧
    ∀ cfg, (State.powerOn cfg).readAvg k = 0#32

/-- 42_encoder.md section 1 (with the spec's decision D2). `ENC b, c, #v` answers the frame of (b, c, v), which is the low 24
bits of its own command word, whatever `AVG` holds; nothing is emitted and nothing else changes. -/
def Obligations.EncAnswersTheFrame : Prop :=
  ∀ (s : State) (b c : BitVec 4) (v : Sample) (k : CellId), b.toNat = k.b.val → c.toNat = k.c.val →
    ∃ t, exec (.enc b c v) s = .next t ∧
      Answered .r (okResponse (frameWord (encodeFrame k v))) s t ∧
      frameWord (encodeFrame k v) = ((encode (.enc b c v)).setWidth 24).setWidth 32 ∧
      SameBuf s t ∧ SameAvg s t ∧ t = { s with rspR := t.rspR }

/-- 43_sequencer.md (with the spec's decision D15 for the first cell). `SEQ` moves to the next cell, builds its
frame from the low 16 bits of the slot, emits it, answers it, and changes nothing else. -/
def Obligations.SeqSendsTheNextCell : Prop :=
  ∀ (s : State) (k : CellId),
    ((s.seq = .idle ∧ k.b = 0 ∧ k.c = 0) ∨
      ∃ k0, s.seq = .sending k0 ∧ k.c.val = (k0.c.val + 1) % 6 ∧
        k.b.val = if k.c.val = 0 then (k0.b.val + 1) % 2 else k0.b.val) →
    ∃ t, exec .seq s = .next t ∧
      t.seq = .sending k ∧
      t.txlog = s.txlog ++ [encodeFrame k ((s.readAvg k).setWidth 16)] ∧
      Answered .r (okResponse (frameWord (encodeFrame k ((s.readAvg k).setWidth 16)))) s t ∧
      SameBuf s t ∧ SameAvg s t ∧
      t = { s with seq := t.seq, txlog := t.txlog, rspR := t.rspR }

/-- 43_sequencer.md (derived there). A `SEQ` answers the same word as `RDAVG` of the cell it moves to, followed by
`ENC` of that cell with the low 16 bits of the answer. -/
def Obligations.SeqAnswersAsRdavgThenEnc : Prop :=
  ∀ s : State, ∃ t u v a x,
    exec .seq s = .next t ∧ t.seq = .sending (nextCell s.seq) ∧ Answered .r (okResponse x) s t ∧
      exec (.rdavg (battBits (nextCell s.seq)) (cellBits (nextCell s.seq))) s = .next u ∧
      Answered .r (okResponse a) s u ∧
      exec (.enc (battBits (nextCell s.seq)) (cellBits (nextCell s.seq)) (voltageCode a)) u = .next v ∧
      Answered .r (okResponse x) u v

/-- 43_sequencer.md (derived there; with the spec's decision D15 for the first cell). From `Idle` the n-th `SEQ`
(n = 1, 2, …) sends the cell with linear number (n − 1) mod 12. -/
def Obligations.NthSeqSendsCellNMinusOneModTwelve : Prop :=
  ∀ (n : Nat) (s : State), s.seq = .idle →
    ∃ t k, execAll (List.replicate (n + 1) .seq) s = .next t ∧ t.seq = .sending k ∧
      6 * k.b.val + k.c.val = n % 12 ∧ t.txlog.length = s.txlog.length + (n + 1)

/-- 43_sequencer.md, "over any 12 consecutive Telemetry Scheduler advances". From any state, 12 `SEQ` emit one frame
for each of the 12 cells, each once, each with that cell's slot. -/
def Obligations.TwelveSeqSendEveryCellOnce : Prop :=
  ∀ s : State, ∃ t, ∃ order : List CellId, execAll (List.replicate 12 .seq) s = .next t ∧ order.Perm allCells ∧
    t.txlog = s.txlog ++ order.map fun k => encodeFrame k (voltageCode (s.readAvg k))

/-- 93_implementation_defined.md U8, 30_encoding.md section 4 (the spec's decision D21; log 15). `WR`, `RDAVG` and `ENC` whose
fields name no cell are turned away: `err` = 1, `rsp` = 0, and nothing changes. -/
def Obligations.IllegalCellIsTurnedAway : Prop :=
  ∀ (s : State) (b c : BitVec 4) (d : Sample), ¬(b.toNat ≤ 1 ∧ c.toNat ≤ 5) →
    ∃ t u, exec (.wr b c d) s = .next t ∧ Answered .w errResponse s t ∧ t = { s with rspW := t.rspW } ∧
      exec (.rdavg b c) s = .next u ∧ exec (.enc b c d) s = .next u ∧
      Answered .r errResponse s u ∧ u = { s with rspR := u.rspR } ∧ SameBuf s t ∧ SameBuf s u

/-! ### The reduce as arithmetic -/

/-- 41_reduce.md section 2 (with the spec's decision D20, derived there). The 32-bit sum of a ring never wraps: it is the sum
of the entries as natural numbers, at most 8388480; the average is its floor by 128 and fits 16 bits. -/
def Obligations.RingSumNeverWraps : Prop :=
  ∀ (s : State) (k : CellId), (s.ringSum k).toNat = s.ringTotal k ∧ s.ringTotal k ≤ 8388480 ∧
    (s.average k).toNat = s.ringTotal k / 128 ∧ (s.average k).toNat < 2 ^ 16

/-- 41_reduce.md section 2 (derived there). An average is at least the smallest entry of the ring and at most the largest;
with `EC1`'s bound on the entries it is at most 4095. -/
def Obligations.AverageLiesBetweenTheEntries : Prop :=
  ∀ (s : State) (k : CellId) (lo hi : Nat), (∀ i, lo ≤ (s.bufRead k i).toNat ∧ (s.bufRead k i).toNat ≤ hi) →
    lo ≤ (s.average k).toNat ∧ (s.average k).toNat ≤ hi

/-- 41_reduce.md section 5, property (a), 95_test_vectors.md X5. Whatever the state, after at least 128 writes to one cell's
ring, each followed by an advance, the reduce gives exactly the floor of the mean of the last 128 samples. Stated under `Tick`
granularity; `SlotReduceEndsAsTickReduce` carries it over to `Slot`. -/
def Obligations.AverageIsTheMeanOfTheLast128Samples : Prop :=
  ∀ (s : State) (b c : BitVec 4) (k : CellId) (ds : List Sample), b.toNat = k.b.val → c.toNat = k.c.val →
    s.cfg.granularity = .tick → 128 ≤ ds.length →
    ∃ t, execAll ((ds.flatMap fun d => [Instr.wr b c d, .adv]) ++ [.red]) s = .next t ∧
      (t.readAvg k).toNat = ((ds.drop (ds.length - 128)).map BitVec.toNat).sum / 128

/-- 40_buffer_write.md section 5 (derived there; the cursor's start is the spec's decision D9). After reset and n `TICK` with
any samples: `CUR` is n mod 128; the entry of each of the last 128 ticks holds that tick's routed sample; entries not yet
written hold `SENTINEL`; and under `OnWrap` every slot is still 0 while n < 128. -/
def Obligations.TicksAfterResetFillTheRings : Prop :=
  ∀ (cfg : Config) (xs : List Samples), cfg.wf →
    ∃ t, execAll (List.replicate xs.length .tick) { State.powerOn cfg with samples := xs } = .next t ∧
      t.cur.toNat = xs.length % 128 ∧
      (∀ j (hj : j < xs.length), xs.length ≤ j + 128 → ∀ ch,
        t.bufRead (routeOf cfg ch) (BitVec.ofNat 7 j) = (xs[j]).get ch) ∧
      (∀ i : RingIndex, xs.length ≤ i.toNat → ∀ k, t.bufRead k i = cfg.sentinel) ∧
      (cfg.policy = .onWrap → xs.length < 128 → ∀ k, t.readAvg k = 0#32)

/-- 40_buffer_write.md section 5 case (a) and 70_reset_and_hazards.md section 3 (the cursor's start is the spec's decision D9).
After reset and m full buffer cycles of ticks, m ≥ 1, under `Tick` and either policy, each slot holds the floor of the mean of
its channel's last 128 samples: no `SENTINEL` is left. -/
def Obligations.FullCyclesAverageTheRoutedSamples : Prop :=
  ∀ (cfg : Config) (xs : List Samples) (m : Nat), cfg.wf → cfg.granularity = .tick → xs.length = 128 * (m + 1) →
    ∃ t, execAll (List.replicate xs.length .tick) { State.powerOn cfg with samples := xs } = .next t ∧
      t.cur = 0#7 ∧
      ∀ ch, (t.readAvg (routeOf cfg ch)).toNat = ((xs.drop (128 * m)).map fun x => (x.get ch).toNat).sum / 128

/-! ### `Slot` granularity -/

/-- 20_memory.md section 3 (the spec's decision D13). Under `Slot`, a `RED` followed by the 12 slot stores in any order ends
where `RED` ends under `Tick`: the same slots, no store owed, one answer 0, and nothing else changed. -/
def Obligations.SlotReduceEndsAsTickReduce : Prop :=
  ∀ (s : State) (order : List CellId), s.cfg.granularity = .slot → order.Perm allCells →
    ∃ t u, exec .red s = .next t ∧
      exec .red { s with cfg := { s.cfg with granularity := .tick } } = .next u ∧
      (order.foldl State.storeSlot t).avg = u.avg ∧
      Answered .w (okResponse 0#32) s (order.foldl State.storeSlot t) ∧
      order.foldl State.storeSlot t =
        { s with avg := u.avg, publishing := [], rspW := (order.foldl State.storeSlot t).rspW }

/-- 20_memory.md section 3 (the spec's decision D13; the answer with the last store is log 9). A scheduled slot store stores
the owed value whole in that slot and in no other; it is owed no longer; with the last one port W answers 0. -/
def Obligations.ScheduledStoreStoresOneSlotWhole : Prop :=
  ∀ (s : State) (k : CellId) (v : Word) (cs : List Choice), s.rst = false → s.turns = .now (.store k) :: cs →
    (s.publishing.map Prod.fst).Nodup → (k, v) ∈ s.publishing →
    ∃ t, step s = .next t ∧ t.readAvg k = v ∧ (∀ k', k' ≠ k → t.readAvg k' = s.readAvg k') ∧
      t.publishing = s.publishing.filter (fun e => decide (e.1 ≠ k)) ∧
      (t.publishing = [] → Answered .w (okResponse 0#32) s t) ∧
      (t.publishing ≠ [] → t.rspW = s.rspW) ∧
      SameBuf s t ∧
      t = { s with avg := t.avg, publishing := t.publishing, rspW := t.rspW, turns := cs }

/-- 20_memory.md section 3 (the spec's decision D13). While stores of a reduce are owed, no step takes a word from port W, and
`BUF` and `CUR` do not change. -/
def Obligations.PortWWaitsForTheReduce : Prop :=
  ∀ s t : State, s.rst = false → s.publishing ≠ [] → step s = .next t →
    t.wIn = s.wIn ∧ t.cur = s.cur ∧ t.buf = s.buf ∧ t.samples = s.samples

/-! ### Reset -/

/-- 70_reset_and_hazards.md section 1, 10_state.md section 1 (with the spec's decisions D9, D15, D18; the quiet inputs are log 5
to 8, 10, 11). The reset state, for every choice of the parameters; and `State.reset` is the reset state of a block with legal
parameters. -/
def Obligations.ResetStateIsAsStated : Prop :=
  (∀ cfg : Config,
    (∀ k i, (State.powerOn cfg).bufRead k i = cfg.sentinel) ∧ (∀ k, (State.powerOn cfg).readAvg k = 0#32) ∧
    (State.powerOn cfg).cur = 0#7 ∧ (State.powerOn cfg).seq = .idle ∧ (State.powerOn cfg).txlog = [] ∧
    (State.powerOn cfg).publishing = [] ∧ (∀ p, (State.powerOn cfg).portIn p = []) ∧
    (∀ p, (State.powerOn cfg).responses p = [])) ∧
  ∃ cfg : Config, cfg.wf ∧ State.reset = State.powerOn cfg

/-- 70_reset_and_hazards.md section 1 (the spec's decision D18). With the reset pin high a step gives the reset state, whatever was
in progress, no word is pending on a port, and the parameters stay. The model's choice: the pulse ends with the step, and the
environment's queued readings and choices stay (log 10); the lists of responses are emptied (log 10, 11). -/
def Obligations.ResetPinTakesTheResetState : Prop :=
  ∀ s : State, s.rst = true → ∃ t, step s = .next t ∧
    SameBlock (State.powerOn s.cfg) t ∧ (∀ p, t.portIn p = []) ∧ (∀ p, t.responses p = []) ∧
    t.cfg = s.cfg ∧ t.rst = false ∧ t.samples = s.samples ∧ t.turns = s.turns ∧ t.draws = s.draws

/-- 70_reset_and_hazards.md section 1. Reset runs no reduce: every slot is 0, which is not `SENTINEL`; a `RED` issued after reset
and before any tick yields `SENTINEL` in every slot. Under `Slot` (20_memory.md section 3, the spec's decision D13) it owes
`SENTINEL` to every slot, which the model holds as a list (log 9). -/
def Obligations.ResetRunsNoReduce : Prop :=
  ∀ cfg : Config, cfg.wf →
    (∀ k, (State.powerOn cfg).readAvg k = 0#32 ∧ (State.powerOn cfg).readAvg k ≠ cfg.sentinel.setWidth 32) ∧
    ∃ t, exec .red (State.powerOn cfg) = .next t ∧
      (cfg.granularity = .tick → ∀ k, t.readAvg k = cfg.sentinel.setWidth 32) ∧
      (cfg.granularity = .slot → t.publishing = allCells.map fun k => (k, cfg.sentinel.setWidth 32))

/-! ### Encodings -/

/-- 30_encoding.md sections 2 to 4 (the spec's decisions D2, D3). Decode and encode are inverse: every well-formed operation,
with every operand at every value, is what its own command word decodes to on its own port; and a word that decodes on a port
decodes to a well-formed operation of that port whose own word it is. -/
def Obligations.DecodeAndEncodeAreInverse : Prop :=
  (∀ i : Instr, i.wellFormed = true → decode i.port (encode i) = .ok i) ∧
  ∀ (p : Port) (w : Word) (i : Instr), decode p w = .ok i → i.wellFormed = true ∧ i.port = p ∧ encode i = w

/-- 30_encoding.md section 4 (the spec's decision D3). The decoder and the opcode map agree: a word decodes on a port to an
operation of a given name exactly when it selects the row of that name there, and it selects at most one row. -/
def Obligations.DecoderAgreesWithTheOpcodeMap : Prop :=
  ∀ (p : Port) (w : Word),
    (∀ row ∈ opcodeRows, row.selects p w = true ↔ ∃ i, decode p w = .ok i ∧ i.mnemonic = row.mnemonic) ∧
    (opcodeRows.filter fun row => row.selects p w).length ≤ 1

/-- 95_test_vectors.md sections 2.1 and 2.2 (derived there; the spec's decision D3). Some command words and what they decode
to, one of each row, and some that are refused. -/
def Obligations.ListedWordsDecodeAsListed : Prop :=
  decode .r 0x00000000#32 = .ok (.nop .r) ∧ decode .w 0x10150ABC#32 = .ok (.wr 1#4 5#4 0x0ABC#16) ∧
  decode .w 0x20000000#32 = .ok .adv ∧ decode .w 0x30000000#32 = .ok .tick ∧ decode .w 0x40000000#32 = .ok .red ∧
  decode .r 0x50150000#32 = .ok (.rdavg 1#4 5#4) ∧ decode .r 0x60108001#32 = .ok (.enc 1#4 0#4 0x8001#16) ∧
  decode .r 0x70000000#32 = .ok .seq ∧ decode .w 0x10060001#32 = .error .cellIdentity ∧
  decode .w 0x11000000#32 = .error .reservedBits ∧ decode .w 0x20000001#32 = .error .unusedField ∧
  decode .r 0x10030123#32 = .error .wrongPort ∧ decode .w 0x80000000#32 = .error .reservedOpcode

/-- 30_encoding.md R63; 42_encoder.md R110. The frame of (b, c, v): byte 0 holds b in bits 7:4 and c in bits 3:0, byte 1 is the
high byte of v, byte 2 the low byte; as one 24-bit number it is `b << 20 | c << 16 | v`. -/
def Obligations.FrameIsBitExact : Prop :=
  ∀ (k : CellId) (v : Sample),
    (encodeFrame k v).byte0.toNat = 16 * k.b.val + k.c.val ∧
    (encodeFrame k v).byte1.toNat = v.toNat / 256 ∧ (encodeFrame k v).byte2.toNat = v.toNat % 256 ∧
    (encodeFrame k v).byte0.extractLsb' 4 4 = battBits k ∧ (encodeFrame k v).byte0.extractLsb' 0 4 = cellBits k ∧
    (frameBits (encodeFrame k v)).toNat = k.b.val * 2 ^ 20 + k.c.val * 2 ^ 16 + v.toNat

/-- 30_encoding.md section 3, 42_encoder.md section 2 (derived there). A receiver recovers cell identity and code from a frame,
so no two inputs share a frame; and byte 0 takes exactly the 12 listed values. -/
def Obligations.FrameDecodingInvertsEncoding : Prop :=
  (∀ (k : CellId) (v : Sample), decodeFrame (encodeFrame k v) = (battBits k, cellBits k, v)) ∧
  (∀ k v k' v', encodeFrame k v = encodeFrame k' v' → k = k' ∧ v = v') ∧
  ∀ x : Byte, (∃ k v, (encodeFrame k v).byte0 = x) ↔
    x ∈ [0x00#8, 0x01#8, 0x02#8, 0x03#8, 0x04#8, 0x05#8, 0x10#8, 0x11#8, 0x12#8, 0x13#8, 0x14#8, 0x15#8]

/-- 40_buffer_write.md section 4, 00_scope.md section 4 (with the spec's decision D11 for the default table). A legal route is
a bijection: every cell is fed by exactly one channel; and the default route is legal. -/
def Obligations.EveryCellHasExactlyOneChannel : Prop :=
  (∀ cfg : Config, cfg.wf → ∀ k, ∃ ch, routeOf cfg ch = k ∧ ∀ ch', routeOf cfg ch' = k → ch' = ch) ∧
  defaultRoute.toList.Nodup

/-! ### The step -/

/-- 20_memory.md section 3, 30_encoding.md section 1 (the spec's decisions D1, D14; the model's ports are log 5, 6, 21). When the
next word of a port decodes to `i` and its turn comes, by the environment's choice or because nothing else can come next, the
step is `exec i` at the state in which that word is off the port. So is the step of a state in which the word has just been
presented next. -/
def Obligations.StepRunsTheDecodedOperation : Prop :=
  ∀ (s : State) (p : Port) (w : Word) (ws : List Word) (i : Instr), decode p w = .ok i →
    (∀ cs, s.rst = false → s.turns = .now (.port p) :: cs → s.portIn p = w :: ws → (p = .w → s.publishing = []) →
      step s = exec i ({ s with turns := cs }.setPortIn p ws)) ∧
    (s.rst = false → s.turns = [] → s.portIn p = w :: ws → (∀ q, q ≠ p → s.portIn q = []) → s.publishing = [] →
      step s = exec i (s.setPortIn p ws)) ∧
    step (s.presentNext p w) =
      exec i { s with rst := false, publishing := if p = .w then [] else s.publishing }

/-- 30_encoding.md section 4, 60_exceptions.md section 1 (the spec's decision D3; that the model goes on is log 3). A word that
encodes no operation is accepted, changes no state, emits no frame, and is answered `err` = 1, `rsp` = 0; the block goes on, and
the words waiting on the other port still wait. -/
def Obligations.UndecodableWordIsAnsweredErr : Prop :=
  ∀ (s : State) (p : Port) (w : Word) (ws : List Word) (cs : List Choice) (e : Reject), decode p w = .error e →
    s.rst = false → s.turns = .now (.port p) :: cs → s.portIn p = w :: ws → (p = .w → s.publishing = []) →
    ∃ t, step s = .next t ∧ Answered p errResponse s t ∧ errResponse.rsp = 0#32 ∧ errResponse.err = true ∧
      SameBlock s t ∧ t.portIn p = ws ∧ (∀ q, q ≠ p → t.portIn q = s.portIn q) ∧
      t = { s with wIn := t.wIn, rIn := t.rIn, turns := cs, rspW := t.rspW, rspR := t.rspR }

/-- 20_memory.md section 3 (the spec's decision D14; the model's choice is log 6). A step always answers a next state: the block
never halts, faults or refuses. If the reset pin is low and some point can come next, the step takes one of those, whatever
the free choice is; if none can, nothing changes. -/
def Obligations.StepAlwaysTakesAPossiblePoint : Prop :=
  ∀ s : State, (∃ t, step s = .next t) ∧
    (s.rst = false → (∃ turn, s.possible turn = true) →
      ∃ turn, ∃ u : State, s.possible turn = true ∧ u = { s with turns := u.turns, draws := u.draws } ∧
        step s = takeTurn u turn) ∧
    (s.rst = false → (∀ turn, s.possible turn = false) → step s = .next s)

/-- 20_memory.md section 3 (the spec's decision D14). With a word on each port and no reduce part way, either port may come next:
for each there is a choice of the environment with which the step accepts that port's word. -/
def Obligations.EitherPortMayComeFirst : Prop :=
  ∀ (s : State) (cs : List Choice), s.rst = false → s.publishing = [] → s.wIn ≠ [] → s.rIn ≠ [] →
    ∀ p, step { s with turns := .now (.port p) :: cs } = accept { s with turns := cs } p

/-- 20_memory.md section 3, 30_encoding.md sections 1 and 2 (the spec's decisions D1, D2, D14). Each port's words are taken one at
a time and in order, and each gets exactly one answer on its own port: on port R at once; on port W at once, unless a reduce is
part way, which owes the answer (log 9). -/
def Obligations.OneAnswerPerAcceptedWord : Prop :=
  ∀ s t : State, s.rst = false → step s = .next t →
    ((t.rIn = s.rIn ∧ t.rspR = s.rspR) ∨ ∃ w r, s.rIn = w :: t.rIn ∧ t.rspR = s.rspR ++ [r]) ∧
    (t.wIn = s.wIn ∨ ∃ w, s.wIn = w :: t.wIn) ∧
    (t.rspW = s.rspW ∨ ∃ r, t.rspW = s.rspW ++ [r]) ∧
    t.wIn.length + t.rspW.length + (if t.publishing = [] then 0 else 1) =
      s.wIn.length + s.rspW.length + (if s.publishing = [] then 0 else 1)

/-! ### Rules about the whole machine -/

/-- 60_exceptions.md section 3 and 20_memory.md section 3 (derived there; the spec's decision D1). No read-side operation changes
`BUF`, `CUR`, `AVG` or anything of port W; no write-side operation changes `SEQ`, the frames or anything of port R. -/
def Obligations.EachSideKeepsTheOtherSidesState : Prop :=
  ∀ (i : Instr) (s t : State), exec i s = .next t →
    (i.port = .r → SameBuf s t ∧ SameAvg s t ∧
      t = { s with seq := t.seq, txlog := t.txlog, rspR := t.rspR }) ∧
    (i.port = .w →
      t = { s with buf := t.buf, cur := t.cur, avg := t.avg, publishing := t.publishing, rspW := t.rspW,
                   samples := t.samples, draws := t.draws })

/-- 60_exceptions.md section 3 (the spec's decision D1). What the read side shows does not depend on `BUF`, `CUR`, the samples or
port W: two states that differ only there give the same answer, frame and sequencer. What the write side does to `BUF`, `CUR`,
`AVG` and port W does not depend on `SEQ`, the frames or port R. -/
def Obligations.EachSideSeesOnlyItsOwnState : Prop :=
  ∀ (i : Instr) (s s' t t' : State), exec i s = .next t → exec i s' = .next t' →
    (i.port = .r → s'.avg = s.avg → s'.seq = s.seq → s'.txlog = s.txlog → s'.rspR = s.rspR →
      t'.avg = t.avg ∧ t'.seq = t.seq ∧ t'.txlog = t.txlog ∧ t'.rspR = t.rspR) ∧
    (i.port = .w → s' = { s with seq := s'.seq, txlog := s'.txlog, rspR := s'.rspR } →
      t' = { t with seq := t'.seq, txlog := t'.txlog, rspR := t'.rspR })

/-- 20_memory.md section 3 (with the spec's decision D13). No torn value: in a step without reset a slot stays, or takes whole the
value a reduce in progress owes it, or takes whole the average of its ring. -/
def Obligations.SlotsAreNeverTorn : Prop :=
  ∀ s t : State, s.rst = false → step s = .next t → ∀ k,
    t.readAvg k = s.readAvg k ∨ (k, t.readAvg k) ∈ s.publishing ∨ t.readAvg k = t.average k

/-- 10_state.md sections 2 and 4, 43_sequencer.md (derived there; the spec's decision D15 for the sequencer), 30_encoding.md
section 1 (one pulse of the transmit port per `SEQ`; the spec's decision D1). In a step without reset: only entries
at the cursor change; the cursor stays or moves by one, 127 to 0; the sequencer never returns to `Idle`; the frames only grow,
by at most one; and the parameters never change, not even at reset. -/
def Obligations.StepsChangeStateOnlyAsAllowed : Prop :=
  ∀ s t : State, step s = .next t →
    t.cfg = s.cfg ∧
    (s.rst = false →
      (∀ k i, i ≠ s.cur → t.bufRead k i = s.bufRead k i) ∧
      (t.cur = s.cur ∨ t.cur.toNat = (s.cur.toNat + 1) % 128) ∧
      (s.seq ≠ .idle → t.seq ≠ .idle) ∧
      (t.txlog = s.txlog ∨ ∃ f, t.txlog = s.txlog ++ [f]))

/-- 10_state.md sections 2 and 3 (derived there; the list form of `BUF` is log 13). The invariant holds in the reset state of every
block with legal parameters, and in `State.reset`. -/
def Obligations.ResetStateMeetsTheInvariant : Prop :=
  (∀ cfg : Config, cfg.wf → (State.powerOn cfg).Inv) ∧ State.reset.Inv

/-- 10_state.md sections 2 and 3 (derived there; the list form of `BUF` is log 13). Every step, from every state that meets the
invariant, gives a state that meets it: `BUF` canonical, every slot and every owed value below 2^16, owed stores distinct and
only under `Slot`, the parameters legal. -/
def Obligations.EveryStepKeepsTheInvariant : Prop :=
  ∀ s t : State, s.Inv → step s = .next t → t.Inv

/-! ### Lines of a program -/

/-- 30_encoding.md section 5, 20_memory.md section 3 (the spec's decisions D4, D13; how lines are presented is log 6, 14). Lines
take effect in their order. The next line of a program, on port `p` with its word waiting: where no reduce is part way, the step
accepts that word; where one is, a line of port W waits, and the step makes one of the stores owed; a line of port R comes, or a
store owed comes first, whatever the free choice is. A store leaves the line the next one. -/
def Obligations.LinesKeepTheirOrder : Prop :=
  ∀ (s : State) (p : Port) (cs : List Choice), s.rst = false → s.turns = .line p :: cs → s.portIn p ≠ [] →
    (s.publishing = [] → step s = accept { s with turns := cs } p) ∧
    (s.publishing ≠ [] → ∃ u : State, u = { s with turns := u.turns, draws := u.draws } ∧
      ((p = .r ∧ u.turns = cs ∧ step s = accept u .r) ∨
        ∃ e ∈ s.publishing, u.turns = .line p :: cs ∧ step s = .next (u.storeSlot e.1)))

/-- 30_encoding.md section 5, 20_memory.md section 3 (the spec's decision D4; how lines are presented is log 14). A program of
well-formed lines, its `TICK` lines with their samples, presented to a quiet block under `Tick`: as many steps as it has lines
carry out its operations in the order of the lines, and nothing is left waiting. -/
def Obligations.PresentedLinesRunInOrder : Prop :=
  ∀ (s : State) (prog : List Line), s.rst = false → s.publishing = [] → s.turns = [] → s.wIn = [] → s.rIn = [] →
    s.cfg.granularity = .tick → (∀ l ∈ prog, l.instr.wellFormed = true) →
    ∃ t, Host.Core.run Sys2Proof.core prog.length (s.present prog) = .next t ∧
      execAll (prog.map Line.instr) { s with samples := s.samples ++ prog.flatMap Line.samples } = .next t
end

