-- ==== Sys2Proof/Laws/Memory.lean ====
section
/-! SUPPORT. The laws of the memory list: a read after a write, and that a write keeps the canonical form. -/

namespace Sys2Proof.Machine

theorem Memory.read_insert (u : Sample) (m : Memory) (a : Nat) (v : Sample) (x : Nat) :
    Memory.read u (m.insert a v) x = if a = x then v else Memory.read u m x := by
  induction m with
  | nil => simp [Memory.insert, Memory.read]
  | cons e m ih =>
    obtain ⟨y, w⟩ := e
    simp only [Memory.insert]
    split
    · simp [Memory.read]
    · split
      · subst_vars; simp only [Memory.read]; split <;> rfl
      · simp only [Memory.read, ih]
        by_cases h1 : y = x <;> by_cases h2 : a = x <;> simp_all

theorem Memory.read_erase (u : Sample) (m : Memory) (a x : Nat) :
    Memory.read u (m.erase a) x = if a = x then u else Memory.read u m x := by
  induction m with
  | nil => simp [Memory.erase, Memory.read]
  | cons e m ih =>
    obtain ⟨y, w⟩ := e
    unfold Memory.erase at ih ⊢
    by_cases hy : y = a
    · subst hy
      rw [List.filter_cons_of_neg (by simp), ih]
      by_cases h : y = x <;> simp [Memory.read, h]
    · rw [List.filter_cons_of_pos (by simp [hy])]
      simp only [Memory.read, ih]
      by_cases h1 : y = x <;> by_cases h2 : a = x <;> simp_all

/-- A read after a write: the value written at that address, the old entry elsewhere. -/
@[simp] theorem Memory.read_write (u : Sample) (m : Memory) (a : Nat) (v : Sample) (x : Nat) :
    Memory.read u (m.write u a v) x = if a = x then v else Memory.read u m x := by
  unfold Memory.write
  split
  · subst_vars; exact Memory.read_erase ..
  · exact Memory.read_insert ..

theorem Memory.risesAbove_mono {lo lo' : Nat} {m : Memory} (h : lo' ≤ lo) (hm : Memory.risesAbove lo m = true) :
    Memory.risesAbove lo' m = true := by
  cases m with
  | nil => rfl
  | cons e m =>
    obtain ⟨x, v⟩ := e
    simp only [Memory.risesAbove, Bool.and_eq_true, decide_eq_true_eq] at hm ⊢
    exact ⟨by omega, hm.2⟩

theorem Memory.risesAbove_insert {lo : Nat} {m : Memory} {a : Nat} {v : Sample} (ha : lo < a)
    (hm : Memory.risesAbove lo m = true) : Memory.risesAbove lo (m.insert a v) = true := by
  induction m generalizing lo with
  | nil => simp [Memory.insert, Memory.risesAbove, ha]
  | cons e m ih =>
    obtain ⟨x, y⟩ := e
    simp only [Memory.risesAbove, Bool.and_eq_true, decide_eq_true_eq] at hm
    simp only [Memory.insert]
    split
    · simp [Memory.risesAbove, hm.2, *]
    · split
      · subst_vars; simp [Memory.risesAbove, hm.1, hm.2]
      · simp only [Memory.risesAbove, Bool.and_eq_true, decide_eq_true_eq]
        exact ⟨hm.1, ih (by omega) hm.2⟩

theorem Memory.risesAbove_filter {lo : Nat} {m : Memory} (p : Nat × Sample → Bool)
    (hm : Memory.risesAbove lo m = true) : Memory.risesAbove lo (m.filter p) = true := by
  induction m generalizing lo with
  | nil => rfl
  | cons e m ih =>
    obtain ⟨x, y⟩ := e
    simp only [Memory.risesAbove, Bool.and_eq_true, decide_eq_true_eq] at hm
    by_cases hp : p (x, y) = true
    · rw [List.filter_cons_of_pos hp]
      simp only [Memory.risesAbove, Bool.and_eq_true, decide_eq_true_eq]
      exact ⟨hm.1, ih hm.2⟩
    · rw [List.filter_cons_of_neg (by simpa using hp)]
      exact Memory.risesAbove_mono (by omega) (ih hm.2)

/-- The canonical form, without its two special cases at the head. -/
theorem Memory.wf_iff (u : Sample) (m : Memory) :
    Memory.wf u m = true ↔
      (m = [] ∨ ∃ x v rest, m = (x, v) :: rest ∧ Memory.risesAbove x rest = true) ∧
      ∀ e ∈ m, e.1 < nCells * capacity ∧ e.2 ≠ u := by
  unfold Memory.wf
  cases m with
  | nil => simp
  | cons e m => obtain ⟨x, v⟩ := e; simp

theorem Memory.mem_insert {m : Memory} {a : Nat} {v : Sample} {e : Nat × Sample} (h : e ∈ m.insert a v) :
    e = (a, v) ∨ e ∈ m := by
  induction m with
  | nil => simpa [Memory.insert] using h
  | cons e' m ih =>
    obtain ⟨x, y⟩ := e'
    simp only [Memory.insert] at h
    split at h
    · simpa using h
    · split at h
      · simp only [List.mem_cons] at h ⊢; tauto
      · simp only [List.mem_cons] at h ⊢
        rcases h with h | h
        · exact .inr (.inl h)
        · rcases ih h with h | h
          · exact .inl h
          · exact .inr (.inr h)

/-- Every write keeps the canonical form. -/
theorem Memory.write_keeps_wf {u : Sample} {m : Memory} {a : Nat} {v : Sample} (ha : a < nCells * capacity)
    (hm : Memory.wf u m = true) : Memory.wf u (m.write u a v) = true := by
  rw [Memory.wf_iff] at hm ⊢
  obtain ⟨hrise, hall⟩ := hm
  unfold Memory.write
  by_cases hv : v = u
  · rw [if_pos hv]
    refine ⟨?_, fun e he => hall e (List.mem_of_mem_filter he)⟩
    rcases hrise with rfl | ⟨x, w, rest, rfl, hr⟩
    · exact .inl rfl
    · unfold Memory.erase
      by_cases hx : x = a
      · rw [List.filter_cons_of_neg (by simp [hx])]
        have h := Memory.risesAbove_filter (fun e => decide (e.1 ≠ a)) hr
        cases hf : rest.filter (fun e => decide (e.1 ≠ a)) with
        | nil => exact .inl rfl
        | cons e tl =>
          obtain ⟨y, z⟩ := e
          rw [hf] at h
          simp only [Memory.risesAbove, Bool.and_eq_true] at h
          exact .inr ⟨y, z, tl, rfl, h.2⟩
      · rw [List.filter_cons_of_pos (by simp [hx])]
        exact .inr ⟨x, w, _, rfl, Memory.risesAbove_filter _ hr⟩
  · rw [if_neg hv]
    refine ⟨?_, fun e he => ?_⟩
    · rcases hrise with rfl | ⟨x, w, rest, rfl, hr⟩
      · exact .inr ⟨a, v, [], rfl, rfl⟩
      · simp only [Memory.insert]
        split
        · exact .inr ⟨a, v, _, rfl, by simp [Memory.risesAbove, *]⟩
        · split
          · subst_vars; exact .inr ⟨_, _, _, rfl, hr⟩
          · exact .inr ⟨_, _, _, rfl, Memory.risesAbove_insert (by omega) hr⟩
    · rcases Memory.mem_insert he with rfl | h
      · exact ⟨ha, hv⟩
      · exact hall e h

end Sys2Proof.Machine
end

