-- ==== Sys2Proof/Laws/State.lean ====
section
/-! SUPPORT. One lemma per field per update of the state, so that no proof unfolds a record update. -/

namespace Sys2Proof.Machine

/-! ### bufWrite: only `buf` -/

@[simp] theorem State.bufWrite_buf (s : State) (k : CellId) (i : RingIndex) (v : Sample) : (s.bufWrite k i v).buf = Memory.write s.cfg.sentinel s.buf (entryAddr k i) v := rfl
@[simp] theorem State.bufWrite_cur (s : State) (k : CellId) (i : RingIndex) (v : Sample) : (s.bufWrite k i v).cur = s.cur := rfl
@[simp] theorem State.bufWrite_avg (s : State) (k : CellId) (i : RingIndex) (v : Sample) : (s.bufWrite k i v).avg = s.avg := rfl
@[simp] theorem State.bufWrite_seq (s : State) (k : CellId) (i : RingIndex) (v : Sample) : (s.bufWrite k i v).seq = s.seq := rfl
@[simp] theorem State.bufWrite_txlog (s : State) (k : CellId) (i : RingIndex) (v : Sample) : (s.bufWrite k i v).txlog = s.txlog := rfl
@[simp] theorem State.bufWrite_rspW (s : State) (k : CellId) (i : RingIndex) (v : Sample) : (s.bufWrite k i v).rspW = s.rspW := rfl
@[simp] theorem State.bufWrite_rspR (s : State) (k : CellId) (i : RingIndex) (v : Sample) : (s.bufWrite k i v).rspR = s.rspR := rfl
@[simp] theorem State.bufWrite_publishing (s : State) (k : CellId) (i : RingIndex) (v : Sample) : (s.bufWrite k i v).publishing = s.publishing := rfl
@[simp] theorem State.bufWrite_rst (s : State) (k : CellId) (i : RingIndex) (v : Sample) : (s.bufWrite k i v).rst = s.rst := rfl
@[simp] theorem State.bufWrite_wIn (s : State) (k : CellId) (i : RingIndex) (v : Sample) : (s.bufWrite k i v).wIn = s.wIn := rfl
@[simp] theorem State.bufWrite_rIn (s : State) (k : CellId) (i : RingIndex) (v : Sample) : (s.bufWrite k i v).rIn = s.rIn := rfl
@[simp] theorem State.bufWrite_samples (s : State) (k : CellId) (i : RingIndex) (v : Sample) : (s.bufWrite k i v).samples = s.samples := rfl
@[simp] theorem State.bufWrite_turns (s : State) (k : CellId) (i : RingIndex) (v : Sample) : (s.bufWrite k i v).turns = s.turns := rfl
@[simp] theorem State.bufWrite_draws (s : State) (k : CellId) (i : RingIndex) (v : Sample) : (s.bufWrite k i v).draws = s.draws := rfl
@[simp] theorem State.bufWrite_cfg (s : State) (k : CellId) (i : RingIndex) (v : Sample) : (s.bufWrite k i v).cfg = s.cfg := rfl

/-! ### writeAvg: only `avg` -/

@[simp] theorem State.writeAvg_buf (s : State) (k : CellId) (v : Word) : (s.writeAvg k v).buf = s.buf := rfl
@[simp] theorem State.writeAvg_cur (s : State) (k : CellId) (v : Word) : (s.writeAvg k v).cur = s.cur := rfl
@[simp] theorem State.writeAvg_seq (s : State) (k : CellId) (v : Word) : (s.writeAvg k v).seq = s.seq := rfl
@[simp] theorem State.writeAvg_txlog (s : State) (k : CellId) (v : Word) : (s.writeAvg k v).txlog = s.txlog := rfl
@[simp] theorem State.writeAvg_rspW (s : State) (k : CellId) (v : Word) : (s.writeAvg k v).rspW = s.rspW := rfl
@[simp] theorem State.writeAvg_rspR (s : State) (k : CellId) (v : Word) : (s.writeAvg k v).rspR = s.rspR := rfl
@[simp] theorem State.writeAvg_publishing (s : State) (k : CellId) (v : Word) : (s.writeAvg k v).publishing = s.publishing := rfl
@[simp] theorem State.writeAvg_rst (s : State) (k : CellId) (v : Word) : (s.writeAvg k v).rst = s.rst := rfl
@[simp] theorem State.writeAvg_wIn (s : State) (k : CellId) (v : Word) : (s.writeAvg k v).wIn = s.wIn := rfl
@[simp] theorem State.writeAvg_rIn (s : State) (k : CellId) (v : Word) : (s.writeAvg k v).rIn = s.rIn := rfl
@[simp] theorem State.writeAvg_samples (s : State) (k : CellId) (v : Word) : (s.writeAvg k v).samples = s.samples := rfl
@[simp] theorem State.writeAvg_turns (s : State) (k : CellId) (v : Word) : (s.writeAvg k v).turns = s.turns := rfl
@[simp] theorem State.writeAvg_draws (s : State) (k : CellId) (v : Word) : (s.writeAvg k v).draws = s.draws := rfl
@[simp] theorem State.writeAvg_cfg (s : State) (k : CellId) (v : Word) : (s.writeAvg k v).cfg = s.cfg := rfl

/-! ### advanceCur: only `cur` -/

@[simp] theorem State.advanceCur_buf (s : State) : (s.advanceCur).buf = s.buf := rfl
@[simp] theorem State.advanceCur_cur (s : State) : (s.advanceCur).cur = (s.cur + 1#7) &&& curMask := rfl
@[simp] theorem State.advanceCur_avg (s : State) : (s.advanceCur).avg = s.avg := rfl
@[simp] theorem State.advanceCur_seq (s : State) : (s.advanceCur).seq = s.seq := rfl
@[simp] theorem State.advanceCur_txlog (s : State) : (s.advanceCur).txlog = s.txlog := rfl
@[simp] theorem State.advanceCur_rspW (s : State) : (s.advanceCur).rspW = s.rspW := rfl
@[simp] theorem State.advanceCur_rspR (s : State) : (s.advanceCur).rspR = s.rspR := rfl
@[simp] theorem State.advanceCur_publishing (s : State) : (s.advanceCur).publishing = s.publishing := rfl
@[simp] theorem State.advanceCur_rst (s : State) : (s.advanceCur).rst = s.rst := rfl
@[simp] theorem State.advanceCur_wIn (s : State) : (s.advanceCur).wIn = s.wIn := rfl
@[simp] theorem State.advanceCur_rIn (s : State) : (s.advanceCur).rIn = s.rIn := rfl
@[simp] theorem State.advanceCur_samples (s : State) : (s.advanceCur).samples = s.samples := rfl
@[simp] theorem State.advanceCur_turns (s : State) : (s.advanceCur).turns = s.turns := rfl
@[simp] theorem State.advanceCur_draws (s : State) : (s.advanceCur).draws = s.draws := rfl
@[simp] theorem State.advanceCur_cfg (s : State) : (s.advanceCur).cfg = s.cfg := rfl

/-! ### setSending: only `seq` -/

@[simp] theorem State.setSending_buf (s : State) (k : CellId) : (s.setSending k).buf = s.buf := rfl
@[simp] theorem State.setSending_cur (s : State) (k : CellId) : (s.setSending k).cur = s.cur := rfl
@[simp] theorem State.setSending_avg (s : State) (k : CellId) : (s.setSending k).avg = s.avg := rfl
@[simp] theorem State.setSending_seq (s : State) (k : CellId) : (s.setSending k).seq = .sending k := rfl
@[simp] theorem State.setSending_txlog (s : State) (k : CellId) : (s.setSending k).txlog = s.txlog := rfl
@[simp] theorem State.setSending_rspW (s : State) (k : CellId) : (s.setSending k).rspW = s.rspW := rfl
@[simp] theorem State.setSending_rspR (s : State) (k : CellId) : (s.setSending k).rspR = s.rspR := rfl
@[simp] theorem State.setSending_publishing (s : State) (k : CellId) : (s.setSending k).publishing = s.publishing := rfl
@[simp] theorem State.setSending_rst (s : State) (k : CellId) : (s.setSending k).rst = s.rst := rfl
@[simp] theorem State.setSending_wIn (s : State) (k : CellId) : (s.setSending k).wIn = s.wIn := rfl
@[simp] theorem State.setSending_rIn (s : State) (k : CellId) : (s.setSending k).rIn = s.rIn := rfl
@[simp] theorem State.setSending_samples (s : State) (k : CellId) : (s.setSending k).samples = s.samples := rfl
@[simp] theorem State.setSending_turns (s : State) (k : CellId) : (s.setSending k).turns = s.turns := rfl
@[simp] theorem State.setSending_draws (s : State) (k : CellId) : (s.setSending k).draws = s.draws := rfl
@[simp] theorem State.setSending_cfg (s : State) (k : CellId) : (s.setSending k).cfg = s.cfg := rfl

/-! ### emitTx: only `txlog` -/

@[simp] theorem State.emitTx_buf (s : State) (f : Frame) : (s.emitTx f).buf = s.buf := rfl
@[simp] theorem State.emitTx_cur (s : State) (f : Frame) : (s.emitTx f).cur = s.cur := rfl
@[simp] theorem State.emitTx_avg (s : State) (f : Frame) : (s.emitTx f).avg = s.avg := rfl
@[simp] theorem State.emitTx_seq (s : State) (f : Frame) : (s.emitTx f).seq = s.seq := rfl
@[simp] theorem State.emitTx_txlog (s : State) (f : Frame) : (s.emitTx f).txlog = s.txlog ++ [f] := rfl
@[simp] theorem State.emitTx_rspW (s : State) (f : Frame) : (s.emitTx f).rspW = s.rspW := rfl
@[simp] theorem State.emitTx_rspR (s : State) (f : Frame) : (s.emitTx f).rspR = s.rspR := rfl
@[simp] theorem State.emitTx_publishing (s : State) (f : Frame) : (s.emitTx f).publishing = s.publishing := rfl
@[simp] theorem State.emitTx_rst (s : State) (f : Frame) : (s.emitTx f).rst = s.rst := rfl
@[simp] theorem State.emitTx_wIn (s : State) (f : Frame) : (s.emitTx f).wIn = s.wIn := rfl
@[simp] theorem State.emitTx_rIn (s : State) (f : Frame) : (s.emitTx f).rIn = s.rIn := rfl
@[simp] theorem State.emitTx_samples (s : State) (f : Frame) : (s.emitTx f).samples = s.samples := rfl
@[simp] theorem State.emitTx_turns (s : State) (f : Frame) : (s.emitTx f).turns = s.turns := rfl
@[simp] theorem State.emitTx_draws (s : State) (f : Frame) : (s.emitTx f).draws = s.draws := rfl
@[simp] theorem State.emitTx_cfg (s : State) (f : Frame) : (s.emitTx f).cfg = s.cfg := rfl

/-! ### respond: only the responses of its port -/

@[simp] theorem State.respond_buf (s : State) (p : Port) (r : Response) : (s.respond p r).buf = s.buf := by cases p <;> rfl
@[simp] theorem State.respond_cur (s : State) (p : Port) (r : Response) : (s.respond p r).cur = s.cur := by cases p <;> rfl
@[simp] theorem State.respond_avg (s : State) (p : Port) (r : Response) : (s.respond p r).avg = s.avg := by cases p <;> rfl
@[simp] theorem State.respond_seq (s : State) (p : Port) (r : Response) : (s.respond p r).seq = s.seq := by cases p <;> rfl
@[simp] theorem State.respond_txlog (s : State) (p : Port) (r : Response) : (s.respond p r).txlog = s.txlog := by cases p <;> rfl
@[simp] theorem State.respond_publishing (s : State) (p : Port) (r : Response) : (s.respond p r).publishing = s.publishing := by cases p <;> rfl
@[simp] theorem State.respond_rst (s : State) (p : Port) (r : Response) : (s.respond p r).rst = s.rst := by cases p <;> rfl
@[simp] theorem State.respond_wIn (s : State) (p : Port) (r : Response) : (s.respond p r).wIn = s.wIn := by cases p <;> rfl
@[simp] theorem State.respond_rIn (s : State) (p : Port) (r : Response) : (s.respond p r).rIn = s.rIn := by cases p <;> rfl
@[simp] theorem State.respond_samples (s : State) (p : Port) (r : Response) : (s.respond p r).samples = s.samples := by cases p <;> rfl
@[simp] theorem State.respond_turns (s : State) (p : Port) (r : Response) : (s.respond p r).turns = s.turns := by cases p <;> rfl
@[simp] theorem State.respond_draws (s : State) (p : Port) (r : Response) : (s.respond p r).draws = s.draws := by cases p <;> rfl
@[simp] theorem State.respond_cfg (s : State) (p : Port) (r : Response) : (s.respond p r).cfg = s.cfg := by cases p <;> rfl
@[simp] theorem State.respond_responses (s : State) (p q : Port) (r : Response) :
    (s.respond p r).responses q = if q = p then s.responses q ++ [r] else s.responses q := by
  cases p <;> cases q <;> rfl

/-! ### turnAway: only the responses of its port -/

@[simp] theorem State.turnAway_buf (s : State) (p : Port) : (s.turnAway p).buf = s.buf := by cases p <;> rfl
@[simp] theorem State.turnAway_cur (s : State) (p : Port) : (s.turnAway p).cur = s.cur := by cases p <;> rfl
@[simp] theorem State.turnAway_avg (s : State) (p : Port) : (s.turnAway p).avg = s.avg := by cases p <;> rfl
@[simp] theorem State.turnAway_seq (s : State) (p : Port) : (s.turnAway p).seq = s.seq := by cases p <;> rfl
@[simp] theorem State.turnAway_txlog (s : State) (p : Port) : (s.turnAway p).txlog = s.txlog := by cases p <;> rfl
@[simp] theorem State.turnAway_publishing (s : State) (p : Port) : (s.turnAway p).publishing = s.publishing := by cases p <;> rfl
@[simp] theorem State.turnAway_rst (s : State) (p : Port) : (s.turnAway p).rst = s.rst := by cases p <;> rfl
@[simp] theorem State.turnAway_wIn (s : State) (p : Port) : (s.turnAway p).wIn = s.wIn := by cases p <;> rfl
@[simp] theorem State.turnAway_rIn (s : State) (p : Port) : (s.turnAway p).rIn = s.rIn := by cases p <;> rfl
@[simp] theorem State.turnAway_samples (s : State) (p : Port) : (s.turnAway p).samples = s.samples := by cases p <;> rfl
@[simp] theorem State.turnAway_turns (s : State) (p : Port) : (s.turnAway p).turns = s.turns := by cases p <;> rfl
@[simp] theorem State.turnAway_draws (s : State) (p : Port) : (s.turnAway p).draws = s.draws := by cases p <;> rfl
@[simp] theorem State.turnAway_cfg (s : State) (p : Port) : (s.turnAway p).cfg = s.cfg := by cases p <;> rfl

/-! ### consumeSamples: only `samples` and `draws` -/

@[simp] theorem State.consumeSamples_buf (s : State) : (s.consumeSamples).buf = s.buf := by unfold State.consumeSamples; split <;> rfl
@[simp] theorem State.consumeSamples_cur (s : State) : (s.consumeSamples).cur = s.cur := by unfold State.consumeSamples; split <;> rfl
@[simp] theorem State.consumeSamples_avg (s : State) : (s.consumeSamples).avg = s.avg := by unfold State.consumeSamples; split <;> rfl
@[simp] theorem State.consumeSamples_seq (s : State) : (s.consumeSamples).seq = s.seq := by unfold State.consumeSamples; split <;> rfl
@[simp] theorem State.consumeSamples_txlog (s : State) : (s.consumeSamples).txlog = s.txlog := by unfold State.consumeSamples; split <;> rfl
@[simp] theorem State.consumeSamples_rspW (s : State) : (s.consumeSamples).rspW = s.rspW := by unfold State.consumeSamples; split <;> rfl
@[simp] theorem State.consumeSamples_rspR (s : State) : (s.consumeSamples).rspR = s.rspR := by unfold State.consumeSamples; split <;> rfl
@[simp] theorem State.consumeSamples_publishing (s : State) : (s.consumeSamples).publishing = s.publishing := by unfold State.consumeSamples; split <;> rfl
@[simp] theorem State.consumeSamples_rst (s : State) : (s.consumeSamples).rst = s.rst := by unfold State.consumeSamples; split <;> rfl
@[simp] theorem State.consumeSamples_wIn (s : State) : (s.consumeSamples).wIn = s.wIn := by unfold State.consumeSamples; split <;> rfl
@[simp] theorem State.consumeSamples_rIn (s : State) : (s.consumeSamples).rIn = s.rIn := by unfold State.consumeSamples; split <;> rfl
@[simp] theorem State.consumeSamples_turns (s : State) : (s.consumeSamples).turns = s.turns := by unfold State.consumeSamples; split <;> rfl
@[simp] theorem State.consumeSamples_cfg (s : State) : (s.consumeSamples).cfg = s.cfg := by unfold State.consumeSamples; split <;> rfl

/-! ### setPortIn: only the words of its port -/

@[simp] theorem State.setPortIn_buf (s : State) (p : Port) (ws : List Word) : (s.setPortIn p ws).buf = s.buf := by cases p <;> rfl
@[simp] theorem State.setPortIn_cur (s : State) (p : Port) (ws : List Word) : (s.setPortIn p ws).cur = s.cur := by cases p <;> rfl
@[simp] theorem State.setPortIn_avg (s : State) (p : Port) (ws : List Word) : (s.setPortIn p ws).avg = s.avg := by cases p <;> rfl
@[simp] theorem State.setPortIn_seq (s : State) (p : Port) (ws : List Word) : (s.setPortIn p ws).seq = s.seq := by cases p <;> rfl
@[simp] theorem State.setPortIn_txlog (s : State) (p : Port) (ws : List Word) : (s.setPortIn p ws).txlog = s.txlog := by cases p <;> rfl
@[simp] theorem State.setPortIn_rspW (s : State) (p : Port) (ws : List Word) : (s.setPortIn p ws).rspW = s.rspW := by cases p <;> rfl
@[simp] theorem State.setPortIn_rspR (s : State) (p : Port) (ws : List Word) : (s.setPortIn p ws).rspR = s.rspR := by cases p <;> rfl
@[simp] theorem State.setPortIn_publishing (s : State) (p : Port) (ws : List Word) : (s.setPortIn p ws).publishing = s.publishing := by cases p <;> rfl
@[simp] theorem State.setPortIn_rst (s : State) (p : Port) (ws : List Word) : (s.setPortIn p ws).rst = s.rst := by cases p <;> rfl
@[simp] theorem State.setPortIn_samples (s : State) (p : Port) (ws : List Word) : (s.setPortIn p ws).samples = s.samples := by cases p <;> rfl
@[simp] theorem State.setPortIn_turns (s : State) (p : Port) (ws : List Word) : (s.setPortIn p ws).turns = s.turns := by cases p <;> rfl
@[simp] theorem State.setPortIn_draws (s : State) (p : Port) (ws : List Word) : (s.setPortIn p ws).draws = s.draws := by cases p <;> rfl
@[simp] theorem State.setPortIn_cfg (s : State) (p : Port) (ws : List Word) : (s.setPortIn p ws).cfg = s.cfg := by cases p <;> rfl
@[simp] theorem State.setPortIn_portIn (s : State) (p q : Port) (ws : List Word) :
    (s.setPortIn p ws).portIn q = if q = p then ws else s.portIn q := by
  cases p <;> cases q <;> rfl

/-! ### reads through the accessors -/

@[simp] theorem State.responses_w (s : State) : s.responses .w = s.rspW := rfl
@[simp] theorem State.responses_r (s : State) : s.responses .r = s.rspR := rfl
@[simp] theorem State.portIn_w (s : State) : s.portIn .w = s.wIn := rfl
@[simp] theorem State.portIn_r (s : State) : s.portIn .r = s.rIn := rfl

/-- What an entry reads as depends on `buf` and `cfg` alone. -/
theorem State.bufRead_congr {s t : State} (hb : t.buf = s.buf) (hc : t.cfg = s.cfg) (k : CellId) (i : RingIndex) :
    t.bufRead k i = s.bufRead k i := by
  simp [State.bufRead, hb, hc]

/-- What a slot reads as depends on `avg` alone. -/
theorem State.readAvg_congr {s t : State} (ha : t.avg = s.avg) (k : CellId) : t.readAvg k = s.readAvg k := by
  simp [State.readAvg, ha]

end Sys2Proof.Machine
end

