-- ==== Sys2Proof/Laws/Buffer.lean ====
section
/-! SUPPORT. The laws of `BUF` and `AVG` as arrays: distinct entries and slots do not overlap; the 12 routed writes of a
tick; the 12 stores of a reduce. -/

namespace Sys2Proof.Machine

theorem cellLin_inj {k k' : CellId} (h : cellLin k = cellLin k') : k = k' := by
  obtain ⟨⟨b, hb⟩, ⟨c, hc⟩⟩ := k
  obtain ⟨⟨b', hb'⟩, ⟨c', hc'⟩⟩ := k'
  simp only [cellLin, Fin.mk.injEq] at h
  have : b = b' := by omega
  have : c = c' := by omega
  subst_vars; rfl

@[simp] theorem cellLin_eq_iff (k k' : CellId) : cellLin k = cellLin k' ↔ k = k' :=
  ⟨cellLin_inj, fun h => h ▸ rfl⟩

theorem entryAddr_inj {k k' : CellId} {i i' : RingIndex} (h : entryAddr k i = entryAddr k' i') : k = k' ∧ i = i' := by
  have h1 := i.isLt
  have h2 := i'.isLt
  simp only [entryAddr, capacity, log2Cap] at h
  have hk : (cellLin k).val = (cellLin k').val := by omega
  exact ⟨cellLin_inj (Fin.ext hk), BitVec.eq_of_toNat_eq (by omega)⟩

theorem entryAddr_lt (k : CellId) (i : RingIndex) : entryAddr k i < nCells * capacity := by
  have h1 := i.isLt
  have h2 := (cellLin k).isLt
  simp only [entryAddr, nCells, nBatt, nCell, capacity, log2Cap] at *
  omega

/-- A read after a write of `BUF`. -/
theorem State.bufRead_bufWrite (s : State) (k k' : CellId) (i i' : RingIndex) (v : Sample) :
    (s.bufWrite k i v).bufRead k' i' = if k' = k ∧ i' = i then v else s.bufRead k' i' := by
  unfold State.bufRead
  simp only [State.bufWrite_buf, State.bufWrite_cfg, Memory.read_write]
  by_cases h : entryAddr k i = entryAddr k' i'
  · obtain ⟨rfl, rfl⟩ := entryAddr_inj h
    simp
  · rw [if_neg h, if_neg]
    rintro ⟨rfl, rfl⟩
    exact h rfl

/-- A load after a store of `AVG`. -/
theorem State.readAvg_writeAvg (s : State) (k k' : CellId) (v : Word) :
    (s.writeAvg k v).readAvg k' = if k' = k then v else s.readAvg k' := by
  unfold State.readAvg State.writeAvg
  simp only [Vector.get_eq_getElem, Vector.getElem_set]
  by_cases h : k' = k
  · simp [h]
  · rw [if_neg h, if_neg]
    intro hv
    exact h (cellLin_inj (Fin.ext hv)).symm

/-- Two slot arrays with the same loads are the same. -/
theorem State.avg_ext {s t : State} (h : ∀ k, t.readAvg k = s.readAvg k) : t.avg = s.avg := by
  ext j hj
  have hk := h ⟨⟨j / 6, by omega⟩, ⟨j % 6, by omega⟩⟩
  have hl : (cellLin ⟨⟨j / 6, by omega⟩, ⟨j % 6, by omega⟩⟩).val = j := Nat.div_add_mod j 6
  simp only [State.readAvg, Vector.get_eq_getElem, hl] at hk
  rw [hk]

theorem mem_allCells (k : CellId) : k ∈ allCells := by
  obtain ⟨b, c⟩ := k
  fin_cases b <;> fin_cases c <;> decide

theorem allCells_nodup : allCells.Nodup := by decide

theorem mem_channels (ch : Fin 12) : ch ∈ channels := by
  fin_cases ch <;> decide

theorem channels_nodup : channels.Nodup := by decide

/-! ### the 12 stores of a reduce -/

/-- A list of slot stores changes `AVG` alone. -/
theorem State.storeAll_frame (s : State) (l : List (CellId × Word)) : s.storeAll l = { s with avg := (s.storeAll l).avg } := by
  unfold State.storeAll
  induction l generalizing s with
  | nil => rfl
  | cons e l ih => rw [List.foldl_cons, ih]; rfl

@[simp] theorem State.storeAll_buf (s : State) (l : List (CellId × Word)) : (s.storeAll l).buf = s.buf := by rw [State.storeAll_frame]
@[simp] theorem State.storeAll_cur (s : State) (l : List (CellId × Word)) : (s.storeAll l).cur = s.cur := by rw [State.storeAll_frame]
@[simp] theorem State.storeAll_seq (s : State) (l : List (CellId × Word)) : (s.storeAll l).seq = s.seq := by rw [State.storeAll_frame]
@[simp] theorem State.storeAll_txlog (s : State) (l : List (CellId × Word)) : (s.storeAll l).txlog = s.txlog := by rw [State.storeAll_frame]
@[simp] theorem State.storeAll_rspW (s : State) (l : List (CellId × Word)) : (s.storeAll l).rspW = s.rspW := by rw [State.storeAll_frame]
@[simp] theorem State.storeAll_rspR (s : State) (l : List (CellId × Word)) : (s.storeAll l).rspR = s.rspR := by rw [State.storeAll_frame]
@[simp] theorem State.storeAll_publishing (s : State) (l : List (CellId × Word)) : (s.storeAll l).publishing = s.publishing := by rw [State.storeAll_frame]
@[simp] theorem State.storeAll_rst (s : State) (l : List (CellId × Word)) : (s.storeAll l).rst = s.rst := by rw [State.storeAll_frame]
@[simp] theorem State.storeAll_wIn (s : State) (l : List (CellId × Word)) : (s.storeAll l).wIn = s.wIn := by rw [State.storeAll_frame]
@[simp] theorem State.storeAll_rIn (s : State) (l : List (CellId × Word)) : (s.storeAll l).rIn = s.rIn := by rw [State.storeAll_frame]
@[simp] theorem State.storeAll_samples (s : State) (l : List (CellId × Word)) : (s.storeAll l).samples = s.samples := by rw [State.storeAll_frame]
@[simp] theorem State.storeAll_turns (s : State) (l : List (CellId × Word)) : (s.storeAll l).turns = s.turns := by rw [State.storeAll_frame]
@[simp] theorem State.storeAll_draws (s : State) (l : List (CellId × Word)) : (s.storeAll l).draws = s.draws := by rw [State.storeAll_frame]
@[simp] theorem State.storeAll_cfg (s : State) (l : List (CellId × Word)) : (s.storeAll l).cfg = s.cfg := by rw [State.storeAll_frame]

/-- A slot after a list of stores that names each slot at most once: the value stored, else as before. -/
theorem State.readAvg_storeAll (s : State) (l : List (CellId × Word)) (hl : (l.map fun e => e.1).Nodup) (k : CellId) :
    (∀ v, (k, v) ∈ l → (s.storeAll l).readAvg k = v) ∧
    (k ∉ l.map (fun e => e.1) → (s.storeAll l).readAvg k = s.readAvg k) := by
  unfold State.storeAll
  induction l generalizing s with
  | nil => simp
  | cons e l ih =>
    obtain ⟨k', v'⟩ := e
    simp only [List.map_cons, List.nodup_cons] at hl
    simp only [List.foldl_cons]
    obtain ⟨ih1, ih2⟩ := ih (s.writeAvg k' v') hl.2
    constructor
    · intro v hv
      rcases List.mem_cons.1 hv with hv | hv
      · simp only [Prod.mk.injEq] at hv
        obtain ⟨rfl, rfl⟩ := hv
        rw [ih2 hl.1, State.readAvg_writeAvg, if_pos rfl]
      · exact ih1 v hv
    · intro hk
      simp only [List.map_cons, List.mem_cons, not_or] at hk
      rw [ih2 hk.2, State.readAvg_writeAvg, if_neg hk.1]

theorem State.reduceResults_keys (s : State) : (s.reduceResults.map fun e => e.1) = allCells := rfl

/-- `Reduce()` changes `AVG` alone. -/
theorem State.reduce_frame (s : State) : s.reduce = { s with avg := s.reduce.avg } := s.storeAll_frame _

@[simp] theorem State.reduce_buf (s : State) : (s.reduce).buf = s.buf := by rw [State.reduce_frame]
@[simp] theorem State.reduce_cur (s : State) : (s.reduce).cur = s.cur := by rw [State.reduce_frame]
@[simp] theorem State.reduce_seq (s : State) : (s.reduce).seq = s.seq := by rw [State.reduce_frame]
@[simp] theorem State.reduce_txlog (s : State) : (s.reduce).txlog = s.txlog := by rw [State.reduce_frame]
@[simp] theorem State.reduce_rspW (s : State) : (s.reduce).rspW = s.rspW := by rw [State.reduce_frame]
@[simp] theorem State.reduce_rspR (s : State) : (s.reduce).rspR = s.rspR := by rw [State.reduce_frame]
@[simp] theorem State.reduce_publishing (s : State) : (s.reduce).publishing = s.publishing := by rw [State.reduce_frame]
@[simp] theorem State.reduce_rst (s : State) : (s.reduce).rst = s.rst := by rw [State.reduce_frame]
@[simp] theorem State.reduce_wIn (s : State) : (s.reduce).wIn = s.wIn := by rw [State.reduce_frame]
@[simp] theorem State.reduce_rIn (s : State) : (s.reduce).rIn = s.rIn := by rw [State.reduce_frame]
@[simp] theorem State.reduce_samples (s : State) : (s.reduce).samples = s.samples := by rw [State.reduce_frame]
@[simp] theorem State.reduce_turns (s : State) : (s.reduce).turns = s.turns := by rw [State.reduce_frame]
@[simp] theorem State.reduce_draws (s : State) : (s.reduce).draws = s.draws := by rw [State.reduce_frame]
@[simp] theorem State.reduce_cfg (s : State) : (s.reduce).cfg = s.cfg := by rw [State.reduce_frame]

/-- Every slot after `Reduce()` holds the average of its ring. -/
@[simp] theorem State.readAvg_reduce (s : State) (k : CellId) : s.reduce.readAvg k = s.average k :=
  (s.readAvg_storeAll s.reduceResults (s.reduceResults_keys ▸ allCells_nodup) k).1 _
    (List.mem_map.2 ⟨k, mem_allCells k, rfl⟩)

/-! ### the 12 routed writes of a tick -/

/-- The writes of a list of channels change `BUF` alone. -/
theorem State.foldl_bufWrite_frame (s : State) (cfg : Config) (cur : RingIndex) (x : Samples) (l : List (Fin 12)) :
    l.foldl (fun t ch => t.bufWrite (routeOf cfg ch) cur (x.get ch)) s =
      { s with buf := (l.foldl (fun t ch => t.bufWrite (routeOf cfg ch) cur (x.get ch)) s).buf } := by
  induction l generalizing s with
  | nil => rfl
  | cons e l ih => rw [List.foldl_cons, ih]; rfl

/-- The 12 routed writes change `BUF` alone. -/
theorem State.routeSamples_frame (s : State) (x : Samples) :
    s.routeSamples x = { s with buf := (s.routeSamples x).buf } := s.foldl_bufWrite_frame ..

@[simp] theorem State.routeSamples_cur (s : State) (x : Samples) : (s.routeSamples x).cur = s.cur := by rw [State.routeSamples_frame]
@[simp] theorem State.routeSamples_avg (s : State) (x : Samples) : (s.routeSamples x).avg = s.avg := by rw [State.routeSamples_frame]
@[simp] theorem State.routeSamples_seq (s : State) (x : Samples) : (s.routeSamples x).seq = s.seq := by rw [State.routeSamples_frame]
@[simp] theorem State.routeSamples_txlog (s : State) (x : Samples) : (s.routeSamples x).txlog = s.txlog := by rw [State.routeSamples_frame]
@[simp] theorem State.routeSamples_rspW (s : State) (x : Samples) : (s.routeSamples x).rspW = s.rspW := by rw [State.routeSamples_frame]
@[simp] theorem State.routeSamples_rspR (s : State) (x : Samples) : (s.routeSamples x).rspR = s.rspR := by rw [State.routeSamples_frame]
@[simp] theorem State.routeSamples_publishing (s : State) (x : Samples) : (s.routeSamples x).publishing = s.publishing := by rw [State.routeSamples_frame]
@[simp] theorem State.routeSamples_rst (s : State) (x : Samples) : (s.routeSamples x).rst = s.rst := by rw [State.routeSamples_frame]
@[simp] theorem State.routeSamples_wIn (s : State) (x : Samples) : (s.routeSamples x).wIn = s.wIn := by rw [State.routeSamples_frame]
@[simp] theorem State.routeSamples_rIn (s : State) (x : Samples) : (s.routeSamples x).rIn = s.rIn := by rw [State.routeSamples_frame]
@[simp] theorem State.routeSamples_samples (s : State) (x : Samples) : (s.routeSamples x).samples = s.samples := by rw [State.routeSamples_frame]
@[simp] theorem State.routeSamples_turns (s : State) (x : Samples) : (s.routeSamples x).turns = s.turns := by rw [State.routeSamples_frame]
@[simp] theorem State.routeSamples_draws (s : State) (x : Samples) : (s.routeSamples x).draws = s.draws := by rw [State.routeSamples_frame]
@[simp] theorem State.routeSamples_cfg (s : State) (x : Samples) : (s.routeSamples x).cfg = s.cfg := by rw [State.routeSamples_frame]

/-- An entry that none of the listed channels writes is as before. -/
theorem State.foldl_bufWrite_other (s : State) (cfg : Config) (cur : RingIndex) (x : Samples) (l : List (Fin 12))
    (k : CellId) (i : RingIndex) (h : i = cur → ∀ ch ∈ l, routeOf cfg ch ≠ k) :
    (l.foldl (fun t ch => t.bufWrite (routeOf cfg ch) cur (x.get ch)) s).bufRead k i = s.bufRead k i := by
  induction l generalizing s with
  | nil => rfl
  | cons ch l ih =>
    rw [List.foldl_cons, ih _ fun hi c hc => h hi c (List.mem_cons_of_mem _ hc), State.bufRead_bufWrite, if_neg]
    rintro ⟨hk, hi⟩
    exact h hi ch List.mem_cons_self hk.symm

/-- Where the route is injective, each channel's entry at the cursor holds its sample after the routed writes, in
whatever order they are made. -/
theorem State.foldl_bufWrite_routed (s : State) (cfg : Config) (cur : RingIndex) (x : Samples) (l : List (Fin 12))
    (hinj : ∀ a b, routeOf cfg a = routeOf cfg b → a = b) (ch : Fin 12) (hch : ch ∈ l) :
    (l.foldl (fun t ch => t.bufWrite (routeOf cfg ch) cur (x.get ch)) s).bufRead (routeOf cfg ch) cur = x.get ch := by
  induction l generalizing s with
  | nil => cases hch
  | cons c l ih =>
    rw [List.foldl_cons]
    by_cases hl : ch ∈ l
    · exact ih _ hl
    · rcases List.mem_cons.1 hch with rfl | h
      · rw [State.foldl_bufWrite_other, State.bufRead_bufWrite, if_pos ⟨rfl, rfl⟩]
        intro _ c hc he
        exact hl (hinj _ _ he ▸ hc)
      · exact absurd h hl

/-- A legal route sends no two channels to one cell (00_scope.md R9). -/
theorem routeOf_injective {cfg : Config} (h : cfg.wf) (a b : Fin 12) (he : routeOf cfg a = routeOf cfg b) : a = b := by
  have hn := h.2
  unfold routeOf at he
  simp only [Vector.get_eq_getElem] at he
  have := (List.Nodup.getElem_inj_iff hn (i := a.val) (j := b.val) (hi := by simp) (hj := by simp)).1
    (by simpa [Vector.getElem_toList] using he)
  exact Fin.ext this

end Sys2Proof.Machine
end

