-- ==== Sys2Proof/Laws/Encoding.lean ====
section
/-! SUPPORT. The fields of a command word, and the words of fields. -/

namespace Sys2Proof

@[simp] theorem opField_commandWord (op b c : BitVec 4) (d : Sample) : opField (commandWord op b c d) = op := by
  ext i hi
  interval_cases i <;> simp [opField, commandWord]

@[simp] theorem zField_commandWord (op b c : BitVec 4) (d : Sample) : zField (commandWord op b c d) = 0#4 := by
  ext i hi
  interval_cases i <;> simp [zField, commandWord]

@[simp] theorem bField_commandWord (op b c : BitVec 4) (d : Sample) : bField (commandWord op b c d) = b := by
  ext i hi
  interval_cases i <;> simp [bField, commandWord]

@[simp] theorem cField_commandWord (op b c : BitVec 4) (d : Sample) : cField (commandWord op b c d) = c := by
  ext i hi
  interval_cases i <;> simp [cField, commandWord]

@[simp] theorem dField_commandWord (op b c : BitVec 4) (d : Sample) : dField (commandWord op b c d) = d := by
  ext i hi
  simp [dField, commandWord]
  simp [hi, show i < 32 by omega, show i < 20 by omega, show i < 28 by omega]

/-- A word whose `z` is 0 is the word of its fields. -/
theorem commandWord_fields (w : Word) (hz : zField w = 0#4) :
    commandWord (opField w) (bField w) (cField w) (dField w) = w := by
  have h : ∀ j, j < 4 → w.getLsbD (24 + j) = false := fun j hj => by
    have := congrArg (fun x => BitVec.getLsbD x j) hz
    simpa [zField, hj] using this
  have h0 := h 0 (by decide)
  have h1 := h 1 (by decide)
  have h2 := h 2 (by decide)
  have h3 := h 3 (by decide)
  ext i hi
  interval_cases i <;> simp_all [commandWord, opField, bField, cField, dField]

end Sys2Proof
end

