-- ==== Sys2Proof/Laws/Ports.lean ====
section
/-! SUPPORT. What the choice of the next point can answer, and what a step can do. -/

namespace Sys2Proof.Machine

/-- The candidates are exactly the points that can come next. -/
theorem State.mem_candidates (s : State) (t : Turn) : t ∈ s.candidates ↔ s.possible t = true := by
  unfold State.candidates
  rw [List.mem_append]
  cases t with
  | port p => cases p <;> simp
  | store k => simp [State.possible]

/-- The line's candidates are its port's word and the owed stores, where they can come next. -/
theorem State.mem_lineCandidates (s : State) (p : Port) (t : Turn) :
    t ∈ s.lineCandidates p ↔ s.possible t = true ∧ (t = .port p ∨ ∃ k, t = .store k) := by
  unfold State.lineCandidates
  rw [List.mem_append]
  cases t with
  | port q => simp [and_comm]
  | store k => simp [State.possible]

/-- A picked point is one of those to pick from, and only `draws` has moved. -/
theorem State.pick_some {s s' : State} {l : List Turn} {t : Turn} (h : s.pick l = some (t, s')) :
    t ∈ l ∧ s' = { s with draws := s'.draws } := by
  unfold State.pick at h
  split at h
  · cases h
  · cases h
    exact ⟨List.mem_singleton_self _, rfl⟩
  · rename_i u v rest
    simp only [Option.some.injEq, Prod.mk.injEq] at h
    obtain ⟨rfl, rfl⟩ := h
    refine ⟨?_, rfl⟩
    have hlt : Config.freeIndex s.draws % (rest.length + 2) < (u :: v :: rest).length := by
      have := Nat.mod_lt (Config.freeIndex s.draws) (show rest.length + 2 > 0 by omega)
      simp only [List.length_cons]
      omega
    rw [List.getD_eq_getElem _ _ hlt]
    exact List.getElem_mem hlt

theorem State.pick_none {s : State} {l : List Turn} (h : s.pick l = none) : l = [] := by
  unfold State.pick at h
  split at h
  · rfl
  · cases h
  · cases h

@[simp] theorem State.pick_singleton (s : State) (t : Turn) : s.pick [t] = some (t, s) := rfl

/-- Where nothing is owed, a waiting line on a ready port is the next point. -/
theorem State.lineTurn_ready {s : State} {p : Port} {cs : List Choice} (hp : s.possible (.port p) = true)
    (ho : s.publishing = []) : s.lineTurn p cs = some (.port p, { s with turns := cs }) := by
  simp [State.lineTurn, State.lineCandidates, hp, ho]

/-- A line's turn is the line, which uses its choice up, or a store, which leaves the choice; else only `draws` moves. -/
theorem State.lineTurn_some {s s' : State} {p : Port} {cs : List Choice} {t : Turn}
    (h : s.lineTurn p cs = some (t, s')) :
    s.possible t = true ∧ ((t = .port p ∧ s' = { s with turns := cs, draws := s'.draws }) ∨
      ∃ k, t = .store k ∧ s' = { s with turns := .line p :: cs, draws := s'.draws }) := by
  obtain ⟨⟨t', u⟩, hu, he⟩ := Option.map_eq_some_iff.mp h
  obtain ⟨hm, hd⟩ := State.pick_some hu
  simp only [Prod.mk.injEq] at he
  obtain ⟨rfl, rfl⟩ := he
  obtain ⟨hp, rfl | ⟨k, rfl⟩⟩ := (s.mem_lineCandidates p t').mp hm
  · exact ⟨hp, .inl ⟨rfl, by rw [hd, if_pos rfl]⟩⟩
  · exact ⟨hp, .inr ⟨k, rfl, by rw [hd]; rfl⟩⟩

/-- A waiting line finds no point only where there is none at all. -/
theorem State.lineTurn_none {s : State} {p : Port} {cs : List Choice} (h : s.lineTurn p cs = none)
    (hw : (s.portIn p).isEmpty = false) : s.candidates = [] := by
  have hl := State.pick_none (Option.map_eq_none_iff.mp h)
  have ho : s.publishing = [] := by
    have := (List.append_eq_nil_iff.mp hl).2
    simpa using this
  have hr : s.rst = true := by
    by_contra hr
    have hr' : s.rst = false := by simpa using hr
    have : Turn.port p ∈ s.lineCandidates p :=
      (s.mem_lineCandidates p _).mpr ⟨by cases p <;> simp_all [State.possible, State.ready], .inl rfl⟩
    rw [hl] at this
    cases this
  simp [State.candidates, State.possible, State.ready, hr, ho, List.filter]

/-- The next turn is a point that can come next, and only the choice's own fields have moved. -/
theorem State.turnBy_some {s s' : State} {t : Turn} (cs : List Choice) (h : s.turnBy cs = some (t, s')) :
    s.possible t = true ∧ s' = { s with turns := s'.turns, draws := s'.draws } := by
  induction cs with
  | nil =>
    obtain ⟨h1, h2⟩ := State.pick_some h
    exact ⟨(s.mem_candidates t).mp h1, by rw [h2]⟩
  | cons c cs ih =>
    cases c with
    | now u =>
      simp only [State.turnBy] at h
      split at h
      · simp only [Option.some.injEq, Prod.mk.injEq] at h
        obtain ⟨rfl, rfl⟩ := h
        exact ⟨‹_›, rfl⟩
      · exact ih h
    | line p =>
      simp only [State.turnBy] at h
      split at h
      · exact ih h
      · obtain ⟨hp, ⟨-, hs⟩ | ⟨k, -, hs⟩⟩ := State.lineTurn_some h
        · exact ⟨hp, by rw [hs]⟩
        · exact ⟨hp, by rw [hs]⟩

theorem State.turnBy_none {s : State} (cs : List Choice) (h : s.turnBy cs = none) : s.candidates = [] := by
  induction cs with
  | nil => exact State.pick_none h
  | cons c cs ih =>
    cases c with
    | now u =>
      simp only [State.turnBy] at h
      split at h
      · cases h
      · exact ih h
    | line p =>
      simp only [State.turnBy] at h
      split at h
      · exact ih h
      · exact State.lineTurn_none h (Bool.not_eq_true _ ▸ ‹_›)

theorem State.nextTurn_some {s s' : State} {t : Turn} (h : s.nextTurn = some (t, s')) :
    s.possible t = true ∧ s' = { s with turns := s'.turns, draws := s'.draws } := State.turnBy_some _ h

theorem State.nextTurn_none {s : State} (h : s.nextTurn = none) : s.candidates = [] := State.turnBy_none _ h

/-- The environment's choice is the next turn, where it can come next. -/
theorem State.nextTurn_scheduled {s : State} {t : Turn} {cs : List Choice} (ht : s.turns = .now t :: cs)
    (hp : s.possible t = true) : s.nextTurn = some (t, { s with turns := cs }) := by
  unfold State.nextTurn
  rw [ht]
  exact if_pos hp

/-- Where the next choice is a line with a word waiting, the next turn is the line's. -/
theorem State.nextTurn_line {s : State} {p : Port} {cs : List Choice} (ht : s.turns = .line p :: cs)
    (hw : s.portIn p ≠ []) : s.nextTurn = s.lineTurn p cs := by
  unfold State.nextTurn
  rw [ht]
  exact if_neg (by simpa using hw)

/-- A step with the reset pin low takes the next turn. -/
theorem step_turn {s u : State} {t : Turn} (hr : s.rst = false) (hn : s.nextTurn = some (t, u)) :
    step s = takeTurn u t := by
  unfold step
  rw [hr, hn]
  rfl

/-- Accepting a word that encodes an operation. -/
theorem accept_decoded {s : State} {p : Port} {w : Word} {ws : List Word} {i : Instr} (hin : s.portIn p = w :: ws)
    (hd : decode p w = .ok i) : accept s p = exec i (s.setPortIn p ws) := by
  unfold accept
  rw [hin]
  simp only [hd]

/-- Accepting a word that encodes none. -/
theorem accept_rejected {s : State} {p : Port} {w : Word} {ws : List Word} {e : Reject} (hin : s.portIn p = w :: ws)
    (hd : decode p w = .error e) : accept s p = .next ((s.setPortIn p ws).turnAway p) := by
  unfold accept
  rw [hin]
  simp only [hd]

/-- What a step can do: the reset event, nothing, one word accepted on a ready port that presents it, or one owed store. -/
theorem step_cases {s t : State} (h : step s = .next t) :
    (s.rst = true ∧ t = s.assertReset) ∨
    (s.rst = false ∧ s.candidates = [] ∧ t = s) ∨
    (s.rst = false ∧ ∃ p w ws, ∃ u : State, u = { s with turns := u.turns, draws := u.draws } ∧ s.ready p = true ∧
      s.portIn p = w :: ws ∧
      ((∃ i, decode p w = .ok i ∧ exec i (u.setPortIn p ws) = .next t) ∨
        (∃ e, decode p w = .error e ∧ t = (u.setPortIn p ws).turnAway p))) ∨
    (s.rst = false ∧ ∃ k, ∃ u : State, u = { s with turns := u.turns, draws := u.draws } ∧ s.possible (.store k) = true ∧
      t = u.storeSlot k) := by
  unfold step at h
  split at h
  · rename_i hr
    cases h
    exact .inl ⟨hr, rfl⟩
  · rename_i hr
    have hr' : s.rst = false := by simpa using hr
    split at h
    · rename_i hn
      cases h
      exact .inr (.inl ⟨hr', State.nextTurn_none hn, rfl⟩)
    · rename_i turn u hn
      obtain ⟨hp, hu⟩ := State.nextTurn_some hn
      cases turn with
      | store k =>
        cases h
        exact .inr (.inr (.inr ⟨hr', k, u, hu, hp, rfl⟩))
      | port p =>
        simp only [State.possible, Bool.and_eq_true, Bool.not_eq_true', List.isEmpty_eq_false_iff] at hp
        have hin : u.portIn p = s.portIn p := by rw [hu]; cases p <;> rfl
        simp only [takeTurn, accept, hin] at h
        split at h
        · rename_i hnil
          exact absurd hnil hp.2
        · rename_i w ws hw
          refine .inr (.inr (.inl ⟨hr', p, w, ws, u, hu, hp.1, hw, ?_⟩))
          split at h
          · rename_i i hd
            exact .inl ⟨i, hd, h⟩
          · rename_i e hd
            cases h
            exact .inr ⟨e, hd, rfl⟩

end Sys2Proof.Machine
end

