-- ==== Sys2Proof/Laws/Reduce.lean ====
section
/-! SUPPORT. The arithmetic of the reduce on lists of samples: the 32-bit sum of few enough samples is their sum as
natural numbers, and the shift is the floor division. -/

namespace Sys2Proof.Machine

theorem foldl_sum_toNat (l : List Sample) (acc : Word) (h : acc.toNat + l.length * 65535 < 2 ^ 32) :
    (l.foldl (fun sum x => sum + x.setWidth 32) acc).toNat = acc.toNat + (l.map BitVec.toNat).sum := by
  induction l generalizing acc with
  | nil => simp
  | cons x l ih =>
    have hx : x.toNat < 65536 := x.isLt
    simp only [List.length_cons, Nat.add_mul, Nat.one_mul] at h
    have hw : (acc + x.setWidth 32).toNat = acc.toNat + x.toNat := by
      rw [BitVec.toNat_add, BitVec.toNat_setWidth, Nat.mod_eq_of_lt (by omega : x.toNat < 2 ^ 32),
        Nat.mod_eq_of_lt (by omega)]
    rw [List.foldl_cons, ih _ (by omega), hw, List.map_cons, List.sum_cons, Nat.add_assoc]

theorem sum_toNat_le (l : List Sample) : (l.map BitVec.toNat).sum ≤ l.length * 65535 := by
  induction l with
  | nil => simp
  | cons x l ih =>
    have hx : x.toNat < 65536 := x.isLt
    simp only [List.map_cons, List.sum_cons, List.length_cons, Nat.add_mul, Nat.one_mul]
    omega

@[simp] theorem State.ring_length (s : State) (k : CellId) : (s.ring k).length = 128 := by
  simp [State.ring, capacity, log2Cap]

/-- The shift of the reduce is the floor division by 128 (41_reduce.md R102 (d)). -/
theorem State.average_toNat (s : State) (k : CellId) : (s.average k).toNat = (s.ringSum k).toNat / 128 := by
  simp [State.average, log2Cap, BitVec.toNat_ushiftRight, Nat.shiftRight_eq_div_pow]

/-- A ring, and so its sum and its average, depends only on what the entries read as. -/
theorem State.ring_congr {s t : State} (k : CellId) (h : ∀ i, t.bufRead k i = s.bufRead k i) : t.ring k = s.ring k := by
  simp [State.ring, h]

theorem State.average_congr {s t : State} (k : CellId) (h : ∀ i, t.bufRead k i = s.bufRead k i) :
    t.average k = s.average k := by
  simp [State.average, State.ringSum, State.ring_congr k h]

end Sys2Proof.Machine
end

