-- ==== Sys2Proof/Laws/Exec.lean ====
section
/-! SUPPORT. One lemma per meaning and per shared operation: what it can change. -/

namespace Sys2Proof.Machine

/-! ### cell identities in a word -/

/-- The fields of a legal cell identity name it. -/
theorem cellOf_fields {b c : BitVec 4} {k : CellId} (hb : b.toNat = k.b.val) (hc : c.toNat = k.c.val) :
    cellOf b c = some k := by
  have h1 := k.b.isLt
  have h2 := k.c.isLt
  unfold cellOf
  rw [dif_pos (by omega), dif_pos (by omega)]
  obtain ⟨b', c'⟩ := k
  congr 2
  · exact Fin.ext hb
  · exact Fin.ext hc

theorem cellOf_illegal {b c : BitVec 4} (h : ¬(b.toNat ≤ 1 ∧ c.toNat ≤ 5)) : cellOf b c = none := by
  unfold cellOf
  split
  · split
    · omega
    · rfl
  · rfl

@[simp] theorem battBits_toNat (k : CellId) : (battBits k).toNat = k.b.val := by
  have := k.b.isLt
  simp [battBits]; omega

@[simp] theorem cellBits_toNat (k : CellId) : (cellBits k).toNat = k.c.val := by
  have := k.c.isLt
  simp [cellBits]; omega

@[simp] theorem cellOf_bits (k : CellId) : cellOf (battBits k) (cellBits k) = some k :=
  cellOf_fields (battBits_toNat k) (cellBits_toNat k)

/-- Whatever an operation on a cell does, it does it to that cell, or the word is turned away. -/
theorem State.onCell_cases (s : State) (p : Port) (b c : BitVec 4) (f : CellId → State) :
    (∃ k, cellOf b c = some k ∧ s.onCell p b c f = f k) ∨ s.onCell p b c f = s.turnAway p := by
  unfold State.onCell
  cases h : cellOf b c with
  | some k => exact .inl ⟨k, rfl, rfl⟩
  | none => exact .inr rfl

/-! ### the cursor -/

/-- The mask wraps as the remainder does (40_buffer_write.md R83). -/
theorem masked_increment (c : RingIndex) : ((c + 1#7) &&& curMask).toNat = (c.toNat + 1) % 128 := by
  have h : curMask = BitVec.allOnes 7 := by decide
  rw [h, BitVec.and_allOnes, BitVec.toNat_add]
  rfl

/-! ### the tick -/

/-- What a tick has changed before its reduce: `BUF`, `CUR`, and the sample queue or the draw counter. -/
theorem State.sampleAndAdvance_frame (s : State) :
    s.sampleAndAdvance = { s with
      buf := s.sampleAndAdvance.buf
      cur := (s.cur + 1#7) &&& curMask
      samples := s.consumeSamples.samples
      draws := s.consumeSamples.draws } := by
  unfold State.sampleAndAdvance
  rw [State.routeSamples_frame]
  unfold State.consumeSamples
  split <;> rfl

@[simp] theorem State.sampleAndAdvance_avg (s : State) : (s.sampleAndAdvance).avg = s.avg := by rw [State.sampleAndAdvance_frame]
@[simp] theorem State.sampleAndAdvance_seq (s : State) : (s.sampleAndAdvance).seq = s.seq := by rw [State.sampleAndAdvance_frame]
@[simp] theorem State.sampleAndAdvance_txlog (s : State) : (s.sampleAndAdvance).txlog = s.txlog := by rw [State.sampleAndAdvance_frame]
@[simp] theorem State.sampleAndAdvance_rspW (s : State) : (s.sampleAndAdvance).rspW = s.rspW := by rw [State.sampleAndAdvance_frame]
@[simp] theorem State.sampleAndAdvance_rspR (s : State) : (s.sampleAndAdvance).rspR = s.rspR := by rw [State.sampleAndAdvance_frame]
@[simp] theorem State.sampleAndAdvance_publishing (s : State) : (s.sampleAndAdvance).publishing = s.publishing := by rw [State.sampleAndAdvance_frame]
@[simp] theorem State.sampleAndAdvance_rst (s : State) : (s.sampleAndAdvance).rst = s.rst := by rw [State.sampleAndAdvance_frame]
@[simp] theorem State.sampleAndAdvance_wIn (s : State) : (s.sampleAndAdvance).wIn = s.wIn := by rw [State.sampleAndAdvance_frame]
@[simp] theorem State.sampleAndAdvance_rIn (s : State) : (s.sampleAndAdvance).rIn = s.rIn := by rw [State.sampleAndAdvance_frame]
@[simp] theorem State.sampleAndAdvance_turns (s : State) : (s.sampleAndAdvance).turns = s.turns := by rw [State.sampleAndAdvance_frame]
@[simp] theorem State.sampleAndAdvance_cfg (s : State) : (s.sampleAndAdvance).cfg = s.cfg := by rw [State.sampleAndAdvance_frame]
@[simp] theorem State.sampleAndAdvance_cur (s : State) : s.sampleAndAdvance.cur = (s.cur + 1#7) &&& curMask := by
  rw [State.sampleAndAdvance_frame]
@[simp] theorem State.sampleAndAdvance_samples (s : State) : s.sampleAndAdvance.samples = s.consumeSamples.samples := by
  rw [State.sampleAndAdvance_frame]
@[simp] theorem State.sampleAndAdvance_draws (s : State) : s.sampleAndAdvance.draws = s.consumeSamples.draws := by
  rw [State.sampleAndAdvance_frame]

/-- What an entry reads as after the writes of a tick. -/
theorem State.sampleAndAdvance_bufRead (s : State) (k : CellId) (i : RingIndex) :
    s.sampleAndAdvance.bufRead k i = (s.consumeSamples.routeSamples s.sampleReading).bufRead k i := rfl

/-- Entries at other indices are as before a tick. -/
theorem State.sampleAndAdvance_other (s : State) (k : CellId) (i : RingIndex) (h : i ≠ s.cur) :
    s.sampleAndAdvance.bufRead k i = s.bufRead k i := by
  rw [State.sampleAndAdvance_bufRead]
  unfold State.routeSamples
  rw [State.foldl_bufWrite_other _ _ _ _ _ _ _ (fun hi => absurd hi (by simpa using h))]
  exact State.bufRead_congr (by simp) (by simp) k i

/-- Each channel's sample is at the cursor of its cell's ring after a tick. -/
theorem State.sampleAndAdvance_routed (s : State) (hw : s.cfg.wf) (ch : Fin 12) :
    s.sampleAndAdvance.bufRead (routeOf s.cfg ch) s.cur = s.sampleReading.get ch := by
  rw [State.sampleAndAdvance_bufRead]
  have h := State.foldl_bufWrite_routed s.consumeSamples s.cfg s.cur s.sampleReading channels
    (fun a b => routeOf_injective hw a b) ch (mem_channels ch)
  unfold State.routeSamples
  simpa using h

/-! ### the reduce and its stores -/

theorem State.reduceAndRespond_tick (s : State) (h : s.cfg.granularity = .tick) :
    s.reduceAndRespond = s.reduce.respond .w (okResponse 0#32) := by
  simp [State.reduceAndRespond, h]

theorem State.reduceAndRespond_slot (s : State) (h : s.cfg.granularity = .slot) :
    s.reduceAndRespond = { s with publishing := s.reduceResults } := by
  simp [State.reduceAndRespond, h]

/-- Only `AVG`, the owed stores and the responses of port W change in a reduce. -/
theorem State.reduceAndRespond_frame (s : State) :
    s.reduceAndRespond = { s with
      avg := s.reduceAndRespond.avg
      publishing := s.reduceAndRespond.publishing
      rspW := s.reduceAndRespond.rspW } := by
  cases h : s.cfg.granularity with
  | tick => rw [State.reduceAndRespond_tick s h, State.reduce_frame]; rfl
  | slot => rw [State.reduceAndRespond_slot s h]

@[simp] theorem State.reduceAndRespond_buf (s : State) : (s.reduceAndRespond).buf = s.buf := by rw [State.reduceAndRespond_frame]
@[simp] theorem State.reduceAndRespond_cur (s : State) : (s.reduceAndRespond).cur = s.cur := by rw [State.reduceAndRespond_frame]
@[simp] theorem State.reduceAndRespond_seq (s : State) : (s.reduceAndRespond).seq = s.seq := by rw [State.reduceAndRespond_frame]
@[simp] theorem State.reduceAndRespond_txlog (s : State) : (s.reduceAndRespond).txlog = s.txlog := by rw [State.reduceAndRespond_frame]
@[simp] theorem State.reduceAndRespond_rspR (s : State) : (s.reduceAndRespond).rspR = s.rspR := by rw [State.reduceAndRespond_frame]
@[simp] theorem State.reduceAndRespond_rst (s : State) : (s.reduceAndRespond).rst = s.rst := by rw [State.reduceAndRespond_frame]
@[simp] theorem State.reduceAndRespond_wIn (s : State) : (s.reduceAndRespond).wIn = s.wIn := by rw [State.reduceAndRespond_frame]
@[simp] theorem State.reduceAndRespond_rIn (s : State) : (s.reduceAndRespond).rIn = s.rIn := by rw [State.reduceAndRespond_frame]
@[simp] theorem State.reduceAndRespond_samples (s : State) : (s.reduceAndRespond).samples = s.samples := by rw [State.reduceAndRespond_frame]
@[simp] theorem State.reduceAndRespond_turns (s : State) : (s.reduceAndRespond).turns = s.turns := by rw [State.reduceAndRespond_frame]
@[simp] theorem State.reduceAndRespond_draws (s : State) : (s.reduceAndRespond).draws = s.draws := by rw [State.reduceAndRespond_frame]
@[simp] theorem State.reduceAndRespond_cfg (s : State) : (s.reduceAndRespond).cfg = s.cfg := by rw [State.reduceAndRespond_frame]

/-- Only `AVG`, the owed stores and the responses of port W change in a slot store. -/
theorem State.storeSlot_frame (s : State) (k : CellId) :
    s.storeSlot k = { s with
      avg := (s.storeSlot k).avg
      publishing := (s.storeSlot k).publishing
      rspW := (s.storeSlot k).rspW } := by
  unfold State.storeSlot
  split
  · rfl
  · simp only
    split <;> rfl

@[simp] theorem State.storeSlot_buf (s : State) (k : CellId) : (s.storeSlot k).buf = s.buf := by rw [State.storeSlot_frame]
@[simp] theorem State.storeSlot_cur (s : State) (k : CellId) : (s.storeSlot k).cur = s.cur := by rw [State.storeSlot_frame]
@[simp] theorem State.storeSlot_seq (s : State) (k : CellId) : (s.storeSlot k).seq = s.seq := by rw [State.storeSlot_frame]
@[simp] theorem State.storeSlot_txlog (s : State) (k : CellId) : (s.storeSlot k).txlog = s.txlog := by rw [State.storeSlot_frame]
@[simp] theorem State.storeSlot_rspR (s : State) (k : CellId) : (s.storeSlot k).rspR = s.rspR := by rw [State.storeSlot_frame]
@[simp] theorem State.storeSlot_rst (s : State) (k : CellId) : (s.storeSlot k).rst = s.rst := by rw [State.storeSlot_frame]
@[simp] theorem State.storeSlot_wIn (s : State) (k : CellId) : (s.storeSlot k).wIn = s.wIn := by rw [State.storeSlot_frame]
@[simp] theorem State.storeSlot_rIn (s : State) (k : CellId) : (s.storeSlot k).rIn = s.rIn := by rw [State.storeSlot_frame]
@[simp] theorem State.storeSlot_samples (s : State) (k : CellId) : (s.storeSlot k).samples = s.samples := by rw [State.storeSlot_frame]
@[simp] theorem State.storeSlot_turns (s : State) (k : CellId) : (s.storeSlot k).turns = s.turns := by rw [State.storeSlot_frame]
@[simp] theorem State.storeSlot_draws (s : State) (k : CellId) : (s.storeSlot k).draws = s.draws := by rw [State.storeSlot_frame]
@[simp] theorem State.storeSlot_cfg (s : State) (k : CellId) : (s.storeSlot k).cfg = s.cfg := by rw [State.storeSlot_frame]

/-- A store of an owed slot. -/
theorem State.storeSlot_owed (s : State) (k : CellId) (v : Word) (h : (k, v) ∈ s.publishing)
    (hn : (s.publishing.map fun e => e.1).Nodup) :
    s.storeSlot k =
      let t := { s.writeAvg k v with publishing := s.publishing.filter fun e => decide (e.1 ≠ k) }
      if t.publishing.isEmpty then t.respond .w (okResponse 0#32) else t := by
  have hf : s.publishing.find? (fun e => decide (e.1 = k)) = some (k, v) := by
    cases hc : s.publishing.find? (fun e => decide (e.1 = k)) with
    | none => simpa using List.find?_eq_none.1 hc (k, v) h
    | some e =>
      have hk : e.1 = k := by simpa using List.find?_some hc
      have := List.inj_on_of_nodup_map hn (List.mem_of_find?_eq_some hc) h hk
      rw [this]
  unfold State.storeSlot
  rw [hf]

/-- The tick reduces exactly when the policy is `EveryTick` or it wrote index 127 (40_buffer_write.md R86). -/
theorem State.reduceDue_iff (s : State) :
    s.sampleAndAdvance.reduceDue = true ↔ (s.cfg.policy = .everyTick ∨ s.cur = 127#7) := by
  unfold State.reduceDue
  rw [State.sampleAndAdvance_cfg, State.sampleAndAdvance_cur]
  cases s.cfg.policy with
  | everyTick => simp
  | onWrap =>
    simp only [decide_eq_true_eq, reduceCtorEq, false_or]
    constructor
    · intro h
      have hm := masked_increment s.cur
      rw [h] at hm
      have := s.cur.isLt
      apply BitVec.eq_of_toNat_eq
      simp at hm ⊢
      omega
    · rintro h
      rw [h]
      decide

/-- What the slots, the owed stores and port W show after the store of an owed slot. -/
theorem State.storeSlot_reads (s : State) (k : CellId) (v : Word) (h : (k, v) ∈ s.publishing)
    (hn : (s.publishing.map fun e => e.1).Nodup) :
    (s.storeSlot k).readAvg k = v ∧
    (∀ k', k' ≠ k → (s.storeSlot k).readAvg k' = s.readAvg k') ∧
    (s.storeSlot k).publishing = s.publishing.filter (fun e => decide (e.1 ≠ k)) ∧
    ((s.storeSlot k).publishing = [] → (s.storeSlot k).rspW = s.rspW ++ [okResponse 0#32]) ∧
    ((s.storeSlot k).publishing ≠ [] → (s.storeSlot k).rspW = s.rspW) := by
  have e := s.storeSlot_owed k v h hn
  simp only at e
  split at e <;> rename_i hc <;> rw [e]
  · simp only [State.respond_publishing, List.isEmpty_iff] at hc ⊢
    refine ⟨?_, ?_, trivial, fun _ => rfl, fun h => absurd hc h⟩
    · rw [State.readAvg_congr (State.respond_avg _ _ _)]
      exact (s.readAvg_writeAvg k k v).trans (if_pos rfl)
    · intro k' hk
      rw [State.readAvg_congr (State.respond_avg _ _ _)]
      exact (s.readAvg_writeAvg k k' v).trans (if_neg hk)
  · simp only [List.isEmpty_iff] at hc
    refine ⟨?_, ?_, rfl, fun h => absurd h hc, fun _ => rfl⟩
    · exact (s.readAvg_writeAvg k k v).trans (if_pos rfl)
    · intro k' hk
      exact (s.readAvg_writeAvg k k' v).trans (if_neg hk)

/-! ### answers and sums -/

/-- An answer on port W, field by field. -/
theorem answered_w {s t : State} {r : Response} (h : t.rspW = s.rspW ++ [r]) (h' : t.rspR = s.rspR) :
    Answered .w r s t :=
  ⟨h, fun q hq => by cases q with
    | w => exact absurd rfl hq
    | r => exact h'⟩

/-- An answer on port R, field by field. -/
theorem answered_r {s t : State} {r : Response} (h : t.rspR = s.rspR ++ [r]) (h' : t.rspW = s.rspW) :
    Answered .r r s t :=
  ⟨h, fun q hq => by cases q with
    | r => exact absurd rfl hq
    | w => exact h'⟩

theorem State.ringTotal_eq_sum (s : State) (k : CellId) : s.ringTotal k = ((s.ring k).map BitVec.toNat).sum := by
  simp [State.ringTotal, State.ring, capacity, log2Cap, Function.comp_def]

theorem State.ringTotal_congr {s t : State} (k : CellId) (h : ∀ i, t.bufRead k i = s.bufRead k i) :
    t.ringTotal k = s.ringTotal k := by
  simp only [State.ringTotal, h]

/-! ### the meanings -/

/-- Every operation completes, in every state. -/
theorem exec_completes (i : Instr) (s : State) : ∃ t, exec i s = .next t := by
  cases i <;> exact ⟨_, rfl⟩

/-- Two sequences in a row are one sequence. -/
theorem execAll_append (l l' : List Instr) (s t : State) (h : execAll l s = .next t) :
    execAll (l ++ l') s = execAll l' t := by
  induction l generalizing s with
  | nil => cases h; rfl
  | cons i l ih =>
    obtain ⟨u, hu⟩ := exec_completes i s
    simp only [List.cons_append, execAll, hu] at h ⊢
    exact ih u h

/-- No operation changes the inputs it does not consume, the choice of the interleaving, or the parameters. -/
theorem exec_keeps_inputs {i : Instr} {s t : State} (h : exec i s = .next t) :
    t.rst = s.rst ∧ t.wIn = s.wIn ∧ t.rIn = s.rIn ∧ t.turns = s.turns ∧ t.cfg = s.cfg := by
  cases i with
  | nop p => cases h; simp
  | wr b c d =>
    cases h
    rcases s.onCell_cases .w b c (fun k => (s.bufWrite k s.cur d).respond .w (okResponse 0#32)) with ⟨k, -, h⟩ | h <;>
      simp [h]
  | adv => cases h; simp
  | tick =>
    cases h
    split
    · rw [State.reduceAndRespond_frame, State.sampleAndAdvance_frame]; simp
    · rw [State.sampleAndAdvance_frame]; simp
  | red => cases h; rw [State.reduceAndRespond_frame]; simp
  | rdavg b c =>
    cases h
    rcases s.onCell_cases .r b c (fun k => s.respond .r (okResponse (s.readAvg k))) with ⟨k, -, h⟩ | h <;> simp [h]
  | enc b c v =>
    cases h
    rcases s.onCell_cases .r b c (fun k => s.respond .r (okResponse (frameWord (encodeFrame k v)))) with
      ⟨k, -, h⟩ | h <;> simp [h]
  | seq => cases h; simp

end Sys2Proof.Machine
end

