-- ==== Sys2Proof/Laws/PerInstr.lean ====
section
/-! SUPPORT. One lemma per operation about its command word as syntax: its opcode is the row's number, its bits 27:24 are 0,
and the port that owns the opcode is the operation's own (`NOP` is owned by both). -/

namespace Sys2Proof

/-- The opcode number of an operation (30_encoding.md R67). -/
def Instr.opcode : Instr → Nat
  | .nop _ => 0
  | .wr _ _ _ => 1
  | .adv => 2
  | .tick => 3
  | .red => 4
  | .rdavg _ _ => 5
  | .enc _ _ _ => 6
  | .seq => 7

namespace Laws.EncodedOpcode

/-- The command word of `i` carries the opcode of `i`, no reserved bit, and leads to a port that `i` may arrive on. -/
def Statement (i : Instr) : Prop :=
  (opField (encode i)).toNat = i.opcode ∧ zField (encode i) = 0#4 ∧
    (portOfWord (encode i) = i.port ∨ ∃ p, i = .nop p)

theorem nop (p : Port) : Statement (.nop p) := by simp [Statement, encode, Instr.opcode]
theorem wr (b c : BitVec 4) (d : Sample) : Statement (.wr b c d) := by
  simp [Statement, encode, Instr.opcode, portOfWord, Instr.port]
theorem adv : Statement .adv := by simp [Statement, encode, Instr.opcode, portOfWord, Instr.port]
theorem tick : Statement .tick := by simp [Statement, encode, Instr.opcode, portOfWord, Instr.port]
theorem red : Statement .red := by simp [Statement, encode, Instr.opcode, portOfWord, Instr.port]
theorem rdavg (b c : BitVec 4) : Statement (.rdavg b c) := by
  simp [Statement, encode, Instr.opcode, portOfWord, Instr.port]
theorem enc (b c : BitVec 4) (v : Sample) : Statement (.enc b c v) := by
  simp [Statement, encode, Instr.opcode, portOfWord, Instr.port]
theorem seq : Statement .seq := by simp [Statement, encode, Instr.opcode, portOfWord, Instr.port]

end Laws.EncodedOpcode

end Sys2Proof
end

