-- ==== Sys2Proof/Tests/Slice0.lean ====
section
/-! SUPPORT. Tests. Every expected value is from 95_test_vectors.md (the vector is named) or from the rule named. Then, for
every statement with hypotheses, a concrete state and operands that meet them together. -/

namespace Sys2Proof.Tests

open Sys2Proof.Machine

/-- Parameters for tests: the given sentinel, the default route, `OnWrap`, `Tick`. -/
def cfgOf (sentinel : Sample) : Config :=
  { sentinel := sentinel, route := defaultRoute, policy := .onWrap, granularity := .tick, txDest := 0 }

/-- The second reading of the document's wiring (91_not_in_source.md N5). -/
def secondRoute : Vector CellId 12 :=
  #v[⟨0, 5⟩, ⟨0, 4⟩, ⟨0, 0⟩, ⟨0, 1⟩, ⟨0, 2⟩, ⟨0, 3⟩, ⟨1, 0⟩, ⟨1, 1⟩, ⟨1, 2⟩, ⟨1, 3⟩, ⟨1, 4⟩, ⟨1, 5⟩]

/-- The reset state with the given sentinel. -/
def s0 (sentinel : Sample) : State := State.powerOn (cfgOf sentinel)

/-- What is seen of the next state. -/
def seen {α : Type} (o : Host.Outcome State Fault Refusal) (f : State → α) : Option α :=
  match o with
  | .next t => some (f t)
  | .fault _ => none
  | .refused _ => none

/-- The samples of V20. -/
def v20 : Samples := #v[0x100, 0x200, 0x300, 0x400, 0x500, 0x600, 0x700, 0x800, 0x900, 0xA00, 0xB00, 0xC00]

/-! ### the checks of WellFormed -/

theorem test_wf_refuses_batt_2 : (Instr.wr 2#4 0#4 0#16).wellFormed = false := by decide
theorem test_wf_refuses_cell_6 : (Instr.wr 0#4 6#4 0#16).wellFormed = false := by decide
theorem test_wf_refuses_rdavg : (Instr.rdavg 1#4 6#4).wellFormed = false ∧ (Instr.rdavg 2#4 5#4).wellFormed = false := by
  decide
theorem test_wf_refuses_enc : (Instr.enc 1#4 8#4 1#16).wellFormed = false ∧ (Instr.enc 15#4 5#4 1#16).wellFormed = false := by
  decide
theorem test_wf_accepts_last_cell : (Instr.wr 1#4 5#4 0xFFFF#16).wellFormed = true := by decide

/-! ### decoding: words written out from 30_encoding.md R61 and R67, field by field `op z b c d` -/

theorem test_decode_nop : decode .w 0b0000_0000_0000_0000_0000000000000000#32 = .ok (.nop .w) ∧
    decode .r 0b0000_0000_0000_0000_0000000000000000#32 = .ok (.nop .r) := by decide
theorem test_decode_wr : decode .w 0b0001_0000_0001_0101_0000101010111100#32 = .ok (.wr 1#4 5#4 0x0ABC#16) := by decide
theorem test_decode_adv : decode .w 0b0010_0000_0000_0000_0000000000000000#32 = .ok .adv := by decide
theorem test_decode_tick : decode .w 0b0011_0000_0000_0000_0000000000000000#32 = .ok .tick := by decide
theorem test_decode_red : decode .w 0b0100_0000_0000_0000_0000000000000000#32 = .ok .red := by decide
theorem test_decode_rdavg : decode .r 0b0101_0000_0000_0011_0000000000000000#32 = .ok (.rdavg 0#4 3#4) := by decide
theorem test_decode_enc : decode .r 0b0110_0000_0001_0000_1000000000000001#32 = .ok (.enc 1#4 0#4 0x8001#16) := by decide
theorem test_decode_seq : decode .r 0b0111_0000_0000_0000_0000000000000000#32 = .ok .seq := by decide

/-- V16a to V16i. -/
theorem test_decode_refuses_on_w :
    [0x80000000#32, 0xFFFFFFFF#32, 0x10060001#32, 0x10070000#32, 0x10080000#32, 0x10200001#32, 0x11000000#32,
      0x20000001#32, 0x30010000#32, 0x00000001#32, 0x70000000#32, 0x50000000#32, 0x60000000#32].all
        (fun w => (decode .w w).toOption.isNone) = true := by decide
/-- V16j to V16p. -/
theorem test_decode_refuses_on_r :
    [0x70100000#32, 0x50000001#32, 0x50160000#32, 0x6026ABCD#32, 0x00000001#32, 0x10030123#32, 0x30000000#32,
      0x40000000#32, 0x20000000#32].all (fun w => (decode .r w).toOption.isNone) = true := by decide

theorem test_table_word : decodeTableWord 32 0x50150000 = some (.rdavg 1#4 5#4) := by decide
theorem test_table_word_refused : decodeTableWord 32 0x10060001 = none := by decide

/-! ### one step of each operation -/

/-- V17. -/
theorem test_wr_stores_at_the_cursor : seen (exec (.wr 1#4 5#4 0x0ABC#16) (s0 0xFFFF#16))
    (fun t => (t.bufRead ⟨1, 5⟩ 0#7, t.bufRead ⟨1, 5⟩ 1#7, t.bufRead ⟨1, 4⟩ 0#7, t.cur)) =
    some (0x0ABC#16, 0xFFFF#16, 0xFFFF#16, 0#7) := by decide
/-- V18, and the canonical form: the sentinel written over an entry is no longer listed. -/
theorem test_wr_overwrites : seen (execAll [.wr 0#4 0#4 1#16, .wr 0#4 0#4 2#16, .wr 0#4 1#4 3#16, .wr 0#4 1#4 0xFFFF#16]
    (s0 0xFFFF#16)) (fun t => t.buf) = some [(0, 2#16)] := by decide
/-- V19b. -/
theorem test_adv_wraps : seen (exec .adv { s0 1#16 with cur := 127#7 }) (fun t => t.cur) = some 0#7 := by decide
/-- V20. -/
theorem test_tick_routes : seen (exec .tick { s0 0xFFFF#16 with samples := [v20] })
    (fun t => (t.bufRead ⟨0, 0⟩ 0#7, t.bufRead ⟨0, 2⟩ 0#7, t.bufRead ⟨1, 5⟩ 0#7, t.bufRead ⟨0, 0⟩ 1#7, t.cur)) =
    some (0x600#16, 0x100#16, 0xC00#16, 0xFFFF#16, 1#7) := by decide
/-- V21. -/
theorem test_tick_second_route : seen (exec .tick { State.powerOn { cfgOf 1#16 with route := secondRoute } with samples := [v20] })
    (fun t => (t.bufRead ⟨0, 0⟩ 0#7, t.bufRead ⟨0, 4⟩ 0#7, t.bufRead ⟨0, 5⟩ 0#7)) =
    some (0x300#16, 0x200#16, 0x100#16) := by decide
/-- V23: `EveryTick`, the blend of one sample and 127 sentinels. -/
theorem test_tick_every : seen (exec .tick { State.powerOn { cfgOf 0xFFFF#16 with policy := .everyTick } with
      samples := [Vector.replicate 12 0x0FFF#16] }) (fun t => (t.readAvg ⟨1, 3⟩, t.rspW)) =
    some (0x0000FE1F#32, [okResponse 0#32]) := by decide +kernel
/-- V48. -/
theorem test_red_floors : seen (execAll [.wr 0#4 0#4 0x0081#16, .red] (s0 1#16))
    (fun t => (t.readAvg ⟨0, 0⟩, t.readAvg ⟨1, 5⟩)) = some (2#32, 1#32) := by decide +kernel
/-- V51. -/
theorem test_rdavg_answers : seen (exec (.rdavg 1#4 5#4) ((s0 0xFFFF#16).writeAvg ⟨1, 5⟩ 0x0000FFFF#32))
    (fun t => t.rspR) = some [⟨0x0000FFFF#32, false⟩] := by decide
/-- V55. -/
theorem test_enc_answers : seen (exec (.enc 1#4 5#4 0xABCD#16) (s0 1#16)) (fun t => (t.rspR, t.txlog)) =
    some ([⟨0x0015ABCD#32, false⟩], []) := by decide
/-- V55: the frame. -/
theorem test_encode_frame : encodeFrame ⟨1, 5⟩ 0xABCD#16 = ⟨0x15#8, 0xAB#8, 0xCD#8⟩ := by decide
/-- V61 and V67. -/
theorem test_seq_from_idle : seen (exec .seq ((s0 1#16).writeAvg ⟨0, 0⟩ 0x0000FFFF#32)) (fun t => (t.seq, t.txlog, t.rspR)) =
    some (.sending ⟨0, 0⟩, [⟨0x00#8, 0xFF#8, 0xFF#8⟩], [⟨0x0000FFFF#32, false⟩]) := by decide
/-- V63 and V65. -/
theorem test_seq_wraps : nextCell (.sending ⟨0, 5⟩) = ⟨1, 0⟩ ∧ nextCell (.sending ⟨1, 5⟩) = ⟨0, 0⟩ := by decide
/-- 40_buffer_write.md R84. -/
theorem test_nop_answers : seen (exec (.nop .r) (s0 1#16)) (fun t => (t.rspR, t.rspW, t.cur)) =
    some ([⟨0#32, false⟩], [], 0#7) := by decide

/-! ### the step -/

/-- P6, line 1: a refused word is answered and the block goes on. -/
theorem test_step_refused_word : seen (step { s0 1#16 with wIn := [0x10060001#32, 0x10000081#32] })
    (fun t => (t.rspW, t.wIn, t.buf)) = some ([⟨0#32, true⟩], [0x10000081#32], []) := by decide
/-- The word of a table row runs as the first instruction after reset. -/
theorem test_step_from_reset : seen (step (State.reset.withFetchWord 32 0x70000000)) (fun t => t.seq) =
    some (.sending ⟨0, 0⟩) := by decide
/-- R150. -/
theorem test_step_reset_pin : seen (step { s0 1#16 with rst := true, cur := 5#7, wIn := [0#32] }) (fun t => t) =
    some (s0 1#16) := by decide
/-- V73: under `Slot`, slot (0,1) is stored before slot (0,0), and a read falls between. -/
theorem test_step_slot_order : seen (Host.Core.run Sys2Proof.core 3
      { State.powerOn { cfgOf 1#16 with granularity := .slot } with
        wIn := [0x40000000#32], rIn := [0x50010000#32],
        turns := [.now (.port .w), .now (.store ⟨0, 1⟩), .now (.port .r)] })
    (fun t => (t.rspR, t.readAvg ⟨0, 0⟩, t.rspW)) = some ([⟨1#32, false⟩], 0#32, []) := by decide +kernel
/-- A program is presented in the order of its lines (30_encoding.md R70, R71). -/
theorem test_present : ((s0 1#16).present (wrAdv 0#4 3#4 3#16 ++ seqN 1 ++ tickAll 7#16)).turns =
    [.line .w, .line .w, .line .r, .line .w] ∧
    ((s0 1#16).present (wrAdv 0#4 3#4 3#16 ++ seqN 1)).wIn = [0x10030003#32, 0x20000000#32] := by decide
/-- R47, R70: under `Slot`, with the last store of a reduce owed, the lines `W: ADV`, `R: RDAVG 0, 0` keep their order: the
store, then `ADV`, then `RDAVG`, which reads the stored slot. -/
theorem test_lines_keep_their_order : seen (Host.Core.run Sys2Proof.core 3
      ({ State.powerOn { cfgOf 1#16 with granularity := .slot } with publishing := [(⟨0, 0⟩, 1#32)] }.present
        [.op .adv, .op (.rdavg 0#4 0#4)]))
    (fun t => (t.rspR, t.rspW, t.cur, t.turns)) = some ([⟨1#32, false⟩], [⟨0#32, false⟩, ⟨0#32, false⟩], 1#7, []) := by decide
/-- R70. -/
theorem test_line_text : lineText (.op (.wr 1#4 5#4 0x10#16)) = "W: WR 1, 5, #16" := by decide
/-- R60, R143. -/
theorem test_ports : (s0 1#16).ready .w = true ∧ chanMask = 0xFFF#12 ∧
    ({ s0 1#16 with txlog := [⟨0x15#8, 0xAB#8, 0xCD#8⟩] }).txPulses = [⟨0x15ABCD#24, 0⟩] := by decide

/-! ### witnesses: for each statement with hypotheses, a state and operands that meet them -/

theorem s0_inv : (s0 1#16).Inv where
  legal_cfg := by decide
  canonical := by decide
  slots_fit := by
    rintro ⟨b, c⟩
    revert b c
    decide
  owed_fit := fun e he => by cases he
  owed_once := List.nodup_nil
  owed_slot := fun h => absurd rfl h

/-- A state of `Slot` granularity with two stores owed. -/
def owing : State :=
  { State.powerOn { cfgOf 1#16 with granularity := .slot } with
    publishing := [(⟨0, 0⟩, 9#32), (⟨1, 5⟩, 7#32)], turns := [.now (.store ⟨1, 5⟩)], rIn := [0#32] }

/-- A legal cell identity in its fields: `WrStoresOneEntryAtTheCursor`, `RdavgAnswersTheSlot`, `EncAnswersTheFrame`,
`AverageIsTheMeanOfTheLast128Samples`, at the last cell. -/
theorem witness_cell_fields : (1#4).toNat = (⟨1, 5⟩ : CellId).b.val ∧ (5#4).toNat = (⟨1, 5⟩ : CellId).c.val := by decide

/-- `WrStoresOneEntryAtTheCursor`, the frame's clause at the next index. -/
theorem witness_WrStoresOneEntryAtTheCursor : ((⟨1, 5⟩ : CellId), 1#7) ≠ (⟨1, 5⟩, (s0 1#16).cur) := by decide

/-- `TickWritesEverySampleAndAdvances`: legal parameters, with a queued reading and without. -/
theorem witness_TickWritesEverySampleAndAdvances :
    (s0 1#16).cfg.wf ∧ (s0 1#16).samples = [] ∧ ({ s0 1#16 with samples := [v20] }).cfg.wf ∧
      ({ s0 1#16 with samples := [v20] }).samples = v20 :: [] := by decide

/-- `TickReducesByThePolicy`: not due at 126; due at 127 under each granularity; due at 0 under `EveryTick`. -/
theorem witness_TickReducesByThePolicy :
    ¬(({ s0 1#16 with cur := 126#7 }).cfg.policy = .everyTick ∨ ({ s0 1#16 with cur := 126#7 }).cur = 127#7) ∧
    (({ s0 1#16 with cur := 127#7 }).cur = 127#7 ∧ ({ s0 1#16 with cur := 127#7 }).cfg.granularity = .tick) ∧
    (({ owing with cur := 127#7 }).cur = 127#7 ∧ ({ owing with cur := 127#7 }).cfg.granularity = .slot) ∧
    (State.powerOn { cfgOf 1#16 with policy := .everyTick }).cfg.policy = .everyTick := by decide

theorem witness_TickIsTwelveWritesThenAdvanceThenReduce : (s0 1#16).cfg.wf ∧ channels.reverse.Perm channels := by decide

/-- `RedStoresTheFloorMeanOfEveryRing`, `SlotReduceEndsAsTickReduce`: both granularities, an order of the stores. -/
theorem witness_RedStoresTheFloorMeanOfEveryRing :
    (s0 1#16).cfg.granularity = .tick ∧ owing.cfg.granularity = .slot ∧ allCells.reverse.Perm allCells := by decide

theorem witness_UnwrittenEntriesCountAsSentinel :
    ((s0 1#16).bufWrite ⟨0, 0⟩ 0#7 0x81#16).bufRead ⟨0, 0⟩ 0#7 = 0x81#16 ∧
    ∀ i : RingIndex, i ∉ [0#7] → ((s0 1#16).bufWrite ⟨0, 0⟩ 0#7 0x81#16).bufRead ⟨0, 0⟩ i = 1#16 := by decide

/-- `SeqSendsTheNextCell`: from `Idle`, inside a pack, over the end of a pack, over the end of the round. -/
theorem witness_SeqSendsTheNextCell :
    ((s0 1#16).seq = .idle ∧ (⟨0, 0⟩ : CellId).b = 0 ∧ (⟨0, 0⟩ : CellId).c = 0) ∧
    (((s0 1#16).setSending ⟨0, 0⟩).seq = .sending ⟨0, 0⟩ ∧ (⟨0, 1⟩ : CellId).c.val = ((⟨0, 0⟩ : CellId).c.val + 1) % 6 ∧
      (⟨0, 1⟩ : CellId).b.val = if (⟨0, 1⟩ : CellId).c.val = 0 then ((⟨0, 0⟩ : CellId).b.val + 1) % 2 else (⟨0, 0⟩ : CellId).b.val) ∧
    (((s0 1#16).setSending ⟨0, 5⟩).seq = .sending ⟨0, 5⟩ ∧ (⟨1, 0⟩ : CellId).c.val = ((⟨0, 5⟩ : CellId).c.val + 1) % 6 ∧
      (⟨1, 0⟩ : CellId).b.val = if (⟨1, 0⟩ : CellId).c.val = 0 then ((⟨0, 5⟩ : CellId).b.val + 1) % 2 else (⟨0, 5⟩ : CellId).b.val) ∧
    (((s0 1#16).setSending ⟨1, 5⟩).seq = .sending ⟨1, 5⟩ ∧ (⟨0, 0⟩ : CellId).c.val = ((⟨1, 5⟩ : CellId).c.val + 1) % 6 ∧
      (⟨0, 0⟩ : CellId).b.val = if (⟨0, 0⟩ : CellId).c.val = 0 then ((⟨1, 5⟩ : CellId).b.val + 1) % 2 else (⟨1, 5⟩ : CellId).b.val) := by
  decide

theorem witness_NthSeqSendsCellNMinusOneModTwelve : (s0 1#16).seq = .idle := by decide

/-- `IllegalCellIsTurnedAway`: each check alone, at the first illegal value. -/
theorem witness_IllegalCellIsTurnedAway :
    ¬((2#4).toNat ≤ 1 ∧ (5#4).toNat ≤ 5) ∧ ¬((1#4).toNat ≤ 1 ∧ (6#4).toNat ≤ 5) := by decide

theorem witness_AverageLiesBetweenTheEntries :
    ∀ i : RingIndex, 1 ≤ ((s0 1#16).bufRead ⟨0, 0⟩ i).toNat ∧ ((s0 1#16).bufRead ⟨0, 0⟩ i).toNat ≤ 4095 := by decide

theorem witness_AverageIsTheMeanOfTheLast128Samples :
    (s0 1#16).cfg.granularity = .tick ∧ 128 ≤ (List.replicate 128 (5#16 : Sample)).length := by
  refine ⟨by decide, ?_⟩
  rw [List.length_replicate]

/-- `TicksAfterResetFillTheRings`: legal parameters, 127 ticks, the oldest and the newest of the last 128, an index not yet
written, `OnWrap`. -/
theorem witness_TicksAfterResetFillTheRings :
    (cfgOf 1#16).wf ∧ (List.replicate 127 v20).length = 127 ∧ 0 < 127 ∧ 127 ≤ 0 + 128 ∧ 126 < 127 ∧ 127 ≤ (127#7).toNat ∧
      (cfgOf 1#16).policy = .onWrap := by
  rw [List.length_replicate]
  decide

theorem witness_FullCyclesAverageTheRoutedSamples :
    (cfgOf 1#16).wf ∧ (cfgOf 1#16).granularity = .tick ∧ (List.replicate 256 v20).length = 128 * (1 + 1) := by
  rw [List.length_replicate]
  decide

/-- `ScheduledStoreStoresOneSlotWhole`: a store that is not the last, and the last one. -/
theorem witness_ScheduledStoreStoresOneSlotWhole :
    (owing.rst = false ∧ owing.turns = .now (.store ⟨1, 5⟩) :: [] ∧ (owing.publishing.map Prod.fst).Nodup ∧
      ((⟨1, 5⟩ : CellId), 7#32) ∈ owing.publishing) ∧
    ((({ owing with publishing := [(⟨1, 5⟩, 7#32)] }).publishing.map Prod.fst).Nodup ∧
      ((⟨1, 5⟩ : CellId), 7#32) ∈ ({ owing with publishing := [(⟨1, 5⟩, 7#32)] }).publishing) := by decide

/-- `PortWWaitsForTheReduce`, `SlotsAreNeverTorn`, `OneAnswerPerAcceptedWord`, `StepsChangeStateOnlyAsAllowed`: a step with
stores owed. -/
theorem witness_PortWWaitsForTheReduce :
    owing.rst = false ∧ owing.publishing ≠ [] ∧ ∃ t, step owing = .next t :=
  ⟨rfl, by decide, _, rfl⟩

/-- `StepsChangeStateOnlyAsAllowed`: a step, with the reset pin low, of a sequencer that has left `Idle`. -/
theorem witness_StepsChangeStateOnlyAsAllowed : ((s0 1#16).setSending ⟨1, 5⟩).seq ≠ .idle ∧
    ({ (s0 1#16).setSending ⟨1, 5⟩ with rIn := [0x70000000#32] }).rst = false ∧
    ∃ t, step { (s0 1#16).setSending ⟨1, 5⟩ with rIn := [0x70000000#32] } = .next t :=
  ⟨by decide, rfl, _, rfl⟩

theorem witness_ResetPinTakesTheResetState : ({ owing with rst := true }).rst = true := rfl

/-- `ResetRunsNoReduce`, `EveryCellHasExactlyOneChannel`, `ResetStateMeetsTheInvariant`: legal parameters, both granularities. -/
theorem witness_ResetRunsNoReduce :
    (cfgOf 1#16).wf ∧ (cfgOf 1#16).granularity = .tick ∧ ({ cfgOf 1#16 with granularity := .slot }).wf ∧
      ({ cfgOf 1#16 with granularity := .slot }).granularity = .slot := by decide

/-- `DecodeAndEncodeAreInverse`: an operand at its largest value, in each direction. -/
theorem witness_DecodeAndEncodeAreInverse :
    (Instr.enc 1#4 5#4 0xFFFF#16).wellFormed = true ∧ decode .r 0x6015FFFF#32 = .ok (.enc 1#4 5#4 0xFFFF#16) := by decide

/-- `StepRunsTheDecodedOperation`: by choice on each port, and because nothing else can come next. -/
theorem witness_StepRunsTheDecodedOperation :
    (decode .r 0#32 = .ok (.nop .r) ∧ owing.rst = false ∧ ({ owing with turns := [.now (.port .r)] }).turns = .now (.port .r) :: [] ∧
      owing.portIn .r = 0#32 :: []) ∧
    (decode .w 0x20000000#32 = .ok .adv ∧ ({ s0 1#16 with wIn := [0x20000000#32] }).turns = [] ∧
      ({ s0 1#16 with wIn := [0x20000000#32] }).portIn .w = 0x20000000#32 :: [] ∧
      ({ s0 1#16 with wIn := [0x20000000#32] }).portIn .r = [] ∧ ({ s0 1#16 with wIn := [0x20000000#32] }).publishing = []) ∧
    (({ s0 1#16 with wIn := [0x20000000#32], turns := [.now (.port .w)] }).turns = .now (.port .w) :: [] ∧
      ({ s0 1#16 with wIn := [0x20000000#32], turns := [.now (.port .w)] }).publishing = []) := by decide

/-- `UndecodableWordIsAnsweredErr`: on port W, and on port R while stores are owed and a word waits on port W. -/
theorem witness_UndecodableWordIsAnsweredErr :
    (decode .r 0x10030123#32 = .error .wrongPort ∧
      ({ owing with wIn := [1#32], rIn := [0x10030123#32], turns := [.now (.port .r)] }).rst = false ∧
      ({ owing with wIn := [1#32], rIn := [0x10030123#32], turns := [.now (.port .r)] }).turns = .now (.port .r) :: [] ∧
      ({ owing with wIn := [1#32], rIn := [0x10030123#32], turns := [.now (.port .r)] }).portIn .r = 0x10030123#32 :: []) ∧
    decode .w 0x80000000#32 = .error .reservedOpcode ∧
      ({ s0 1#16 with wIn := [0x80000000#32], turns := [.now (.port .w)] }).turns = .now (.port .w) :: [] ∧
      ({ s0 1#16 with wIn := [0x80000000#32], turns := [.now (.port .w)] }).portIn .w = 0x80000000#32 :: [] ∧
      ({ s0 1#16 with wIn := [0x80000000#32], turns := [.now (.port .w)] }).publishing = [] ∧
      ({ s0 1#16 with wIn := [0x80000000#32], turns := [.now (.port .w)] }).rst = false := by decide

/-- `StepAlwaysTakesAPossiblePoint`: a state in which a point is possible, and one in which none is. -/
theorem witness_StepAlwaysTakesAPossiblePoint :
    owing.rst = false ∧ owing.possible (.store ⟨1, 5⟩) = true ∧ (s0 1#16).rst = false ∧
      ∀ turn, (s0 1#16).possible turn = false := by
  refine ⟨rfl, by decide, rfl, fun turn => ?_⟩
  cases turn with
  | port p => cases p <;> rfl
  | store k => rfl

theorem witness_EitherPortMayComeFirst :
    ({ s0 1#16 with wIn := [0x20000000#32], rIn := [0x70000000#32] }).rst = false ∧
      ({ s0 1#16 with wIn := [0x20000000#32], rIn := [0x70000000#32] }).publishing = [] ∧
      ({ s0 1#16 with wIn := [0x20000000#32], rIn := [0x70000000#32] }).wIn ≠ [] ∧
      ({ s0 1#16 with wIn := [0x20000000#32], rIn := [0x70000000#32] }).rIn ≠ [] := by decide

/-- `EachSideKeepsTheOtherSidesState`: an operation of each side that takes effect. -/
theorem witness_EachSideKeepsTheOtherSidesState :
    (Instr.seq.port = .r ∧ ∃ t, exec .seq (s0 1#16) = .next t) ∧ (Instr.tick.port = .w ∧ ∃ t, exec .tick (s0 1#16) = .next t) :=
  ⟨⟨rfl, _, rfl⟩, rfl, _, rfl⟩

/-- `EachSideSeesOnlyItsOwnState`: two states that differ in `CUR` only, and two that differ in `SEQ` only. -/
theorem witness_EachSideSeesOnlyItsOwnState :
    (({ s0 1#16 with cur := 5#7 }).avg = (s0 1#16).avg ∧ ({ s0 1#16 with cur := 5#7 }).seq = (s0 1#16).seq ∧
      ({ s0 1#16 with cur := 5#7 }).txlog = (s0 1#16).txlog ∧ ({ s0 1#16 with cur := 5#7 }).rspR = (s0 1#16).rspR) ∧
    (s0 1#16).setSending ⟨1, 1⟩ = { s0 1#16 with seq := .sending ⟨1, 1⟩, txlog := [], rspR := [] } :=
  ⟨⟨rfl, rfl, rfl, rfl⟩, rfl⟩

/-- `EveryStepKeepsTheInvariant`: a state that meets the invariant and takes a step. -/
theorem witness_EveryStepKeepsTheInvariant : (s0 1#16).Inv ∧ ∃ t, step (s0 1#16) = .next t := ⟨s0_inv, _, rfl⟩

/-- `LinesKeepTheirOrder`: the next line on each port, with no store owed and with stores owed. -/
theorem witness_LinesKeepTheirOrder :
    ([Port.w, Port.r].all fun p => [[], owing.publishing].all fun owed =>
      let s : State := { owing with publishing := owed, wIn := [0x20000000#32], turns := [.line p] }
      decide (s.rst = false ∧ s.turns = .line p :: [] ∧ s.portIn p ≠ [])) = true ∧ owing.publishing ≠ [] := by decide

/-- `PresentedLinesRunInOrder`: a quiet block under `Tick` and well-formed lines of both ports. -/
theorem witness_PresentedLinesRunInOrder :
    (s0 1#16).rst = false ∧ (s0 1#16).publishing = [] ∧ (s0 1#16).turns = [] ∧ (s0 1#16).wIn = [] ∧ (s0 1#16).rIn = [] ∧
      (s0 1#16).cfg.granularity = .tick ∧ ∀ l ∈ wrAdv 1#4 5#4 3#16 ++ [.tick v20] ++ seqN 1, l.instr.wellFormed = true := by
  decide

end Sys2Proof.Tests
end

section
/-! The telemetry frame as the concatenation of its fields, and its parts as numbers (30_encoding.md R63; 42_encoder.md R110). -/

namespace Sys2Proof.Machine

/-- A concatenation as a number: the high part, moved up by the width of the low part, and the low part. -/
theorem toNat_append_eq_add {m n : Nat} (x : BitVec m) (y : BitVec n) : (x ++ y).toNat = x.toNat * 2 ^ n + y.toNat := by
  rw [BitVec.toNat_append, ← Nat.shiftLeft_add_eq_or_of_lt y.isLt, Nat.shiftLeft_eq]

theorem encodeFrame_byte0 (k : CellId) (v : Sample) : (encodeFrame k v).byte0 = battBits k ++ cellBits k := by
  calc (encodeFrame k v).byte0
    _ = (battBits k ++ cellBits k).setWidth 8 := BitVec.setWidth_append_eq_shiftLeft_setWidth_or.symm
    _ = battBits k ++ cellBits k := BitVec.setWidth_eq _

theorem frameBits_eq_append (f : Frame) : frameBits f = f.byte0 ++ f.byte1 ++ f.byte2 := by
  calc frameBits f
    _ = (f.byte0 ++ f.byte1 ++ f.byte2).setWidth 24 := by
      rw [BitVec.setWidth_append_append_eq_shiftLeft_setWidth_or, frameBits]
    _ = f.byte0 ++ f.byte1 ++ f.byte2 := BitVec.setWidth_eq _

@[simp] theorem highByte_append_lowByte (v : Sample) : highByte v ++ lowByte v = v :=
  BitVec.extractLsb'_append_extractLsb' (w := 8) (len := 8)

@[simp] theorem highByte_toNat (v : Sample) : (highByte v).toNat = v.toNat / 256 := by
  have hv := v.isLt
  simp only [highByte, BitVec.extractLsb'_toNat, Nat.shiftRight_eq_div_pow]
  omega

@[simp] theorem lowByte_toNat (v : Sample) : (lowByte v).toNat = v.toNat % 256 := by
  simp [lowByte]

/-- R63, the frame as one 24-bit number: its fields b, c and the code, side by side. -/
theorem frameBits_encodeFrame (k : CellId) (v : Sample) :
    frameBits (encodeFrame k v) = battBits k ++ cellBits k ++ v := by
  calc frameBits (encodeFrame k v)
    _ = battBits k ++ cellBits k ++ highByte v ++ lowByte v := by rw [frameBits_eq_append, encodeFrame_byte0]; rfl
    _ = battBits k ++ cellBits k ++ (highByte v ++ lowByte v) := BitVec.append_assoc
    _ = battBits k ++ cellBits k ++ v := by rw [highByte_append_lowByte]

/-- Settles O30: byte 0 and the 24-bit number are concatenations of fields, and the bytes of the code are its quotient and
remainder by 256. -/
theorem frameIsBitExact : Obligations.FrameIsBitExact := by
  intro k v
  have hbyte0 := encodeFrame_byte0 k v
  refine ⟨?_, highByte_toNat v, lowByte_toNat v, ?_, ?_, ?_⟩
  · rw [hbyte0, toNat_append_eq_add, battBits_toNat, cellBits_toNat]
    omega
  · rw [hbyte0, BitVec.extractLsb'_append_eq_left]
  · rw [hbyte0, BitVec.extractLsb'_append_eq_right]
  · rw [frameBits_encodeFrame, toNat_append_eq_add, toNat_append_eq_add, battBits_toNat, cellBits_toNat]
    omega

end Sys2Proof.Machine
end

section
/-! The command word as the number of its fields (30_encoding.md R61), and what `WR` does (40_buffer_write.md R80). -/

namespace Sys2Proof

/-- R61: a word as a number is its five fields, each at its own place. -/
theorem toNat_eq_fields (w : Word) :
    w.toNat = (opField w).toNat * 2 ^ 28 + (zField w).toNat * 2 ^ 24 + (bField w).toNat * 2 ^ 20 +
      (cField w).toNat * 2 ^ 16 + (dField w).toNat := by
  have hw := w.isLt
  simp only [opField, zField, bField, cField, dField, BitVec.extractLsb'_toNat, Nat.shiftRight_eq_div_pow]
  omega

theorem commandWord_toNat (op b c : BitVec 4) (d : Sample) :
    (commandWord op b c d).toNat = op.toNat * 2 ^ 28 + b.toNat * 2 ^ 20 + c.toNat * 2 ^ 16 + d.toNat := by
  simpa using toNat_eq_fields (commandWord op b c d)

end Sys2Proof

namespace Sys2Proof.Machine

/-- An answer leaves every entry of `BUF` as it reads. -/
@[simp] theorem State.bufRead_respond (s : State) (p : Port) (r : Response) (k : CellId) (i : RingIndex) :
    (s.respond p r).bufRead k i = s.bufRead k i :=
  State.bufRead_congr (s.respond_buf p r) (s.respond_cfg p r) k i

/-- `WR` on the fields of a legal cell identity is one write of `BUF` at the cursor and one answer. -/
theorem exec_wr_of_fields (s : State) {b c : BitVec 4} {k : CellId} (d : Sample) (hb : b.toNat = k.b.val)
    (hc : c.toNat = k.c.val) :
    exec (.wr b c d) s = .next ((s.bufWrite k s.cur d).respond .w (okResponse 0#32)) := by
  simp only [exec, execWr, State.onCell, cellOf_fields hb hc]

/-- Settles O1: the word is the number of its fields; the state is that of one write of `BUF` and one answer on port W, read
by the law of a read after a write. -/
theorem wrStoresOneEntryAtTheCursor : Obligations.WrStoresOneEntryAtTheCursor := by
  intro s b c d k hb hc
  refine ⟨commandWord_toNat 1#4 b c d, _, exec_wr_of_fields s d hb hc, ?stored, ?others, fun _ => rfl,
    answered_w rfl rfl, rfl⟩
  case stored => rw [State.bufRead_respond, State.bufRead_bufWrite, if_pos ⟨rfl, rfl⟩]
  case others =>
    intro k' i hne
    rw [State.bufRead_respond, State.bufRead_bufWrite, if_neg]
    rintro ⟨rfl, rfl⟩
    exact hne rfl

end Sys2Proof.Machine
end

section
/-! The sum of a ring split at the written entries, and what the reduce gives for the rest (41_reduce.md R101). -/

namespace Sys2Proof.Machine

/-- A sum over distinct elements splits at a part of them outside of which every term is the same number. -/
theorem sum_map_eq_part_add_rest {α : Type} [DecidableEq α] {all part : List α} (f : α → Nat) (c : Nat)
    (hall : all.Nodup) (hpart : part.Nodup) (hsub : part ⊆ all) (hrest : ∀ a, a ∉ part → f a = c) :
    (all.map f).sum = (part.map f).sum + (all.length - part.length) * c := by
  have hsplit : (part ++ all.diff part).Perm all :=
    List.subperm_append_diff_self_of_count_le (List.subperm_ext_iff.mp (hpart.subperm hsub))
  have hconst : ((all.diff part).map f).sum = (all.diff part).length * c := by
    rw [List.sum_eq_card_nsmul _ c, List.length_map, smul_eq_mul]
    intro x hx
    obtain ⟨a, ha, rfl⟩ := List.mem_map.mp hx
    exact hrest a (hall.mem_sdiff_iff.mp ha).2
  have hlength : (all.diff part).length = all.length - part.length := by
    rw [← hsplit.length_eq, List.length_append, Nat.add_sub_cancel_left]
  calc (all.map f).sum
    _ = ((part ++ all.diff part).map f).sum := ((hsplit.map f).sum_eq).symm
    _ = (part.map f).sum + (all.length - part.length) * c := by
      rw [List.map_append, List.sum_append, hconst, hlength]

/-- The indices of a ring, in the order in which the reduce reads the entries. -/
def ringIndices : List RingIndex := (List.range capacity).map (BitVec.ofNat 7)

@[simp] theorem ringIndices_length : ringIndices.length = 128 := by
  simp [ringIndices, capacity, log2Cap]

theorem mem_ringIndices (i : RingIndex) : i ∈ ringIndices :=
  List.mem_map.mpr ⟨i.toNat, List.mem_range.mpr i.isLt, BitVec.ofNat_toNat 7 i⟩

theorem ringIndices_nodup : ringIndices.Nodup := by
  refine List.nodup_range.map_on fun i hi j hj h => ?_
  have hi : i < 2 ^ 7 := List.mem_range.mp hi
  have hj : j < 2 ^ 7 := List.mem_range.mp hj
  have h := congrArg BitVec.toNat h
  rwa [BitVec.toNat_ofNat, BitVec.toNat_ofNat, Nat.mod_eq_of_lt hi, Nat.mod_eq_of_lt hj] at h

theorem State.ringTotal_eq_sum_ringIndices (s : State) (k : CellId) :
    s.ringTotal k = (ringIndices.map fun i => (s.bufRead k i).toNat).sum := by
  rw [ringIndices, List.map_map]
  rfl

/-- The 32-bit sum of a ring does not wrap: 128 samples are too few (41_reduce.md R102 (b)). -/
theorem State.ringSum_toNat (s : State) (k : CellId) : (s.ringSum k).toNat = s.ringTotal k := by
  rw [State.ringSum, foldl_sum_toNat _ _ (by rw [State.ring_length]; decide), State.ringTotal_eq_sum]
  exact Nat.zero_add _

/-- The reduce gives the floor of the mean of all 128 entries (41_reduce.md R100). -/
theorem State.average_toNat_eq_ringTotal_div (s : State) (k : CellId) : (s.average k).toNat = s.ringTotal k / 128 := by
  rw [State.average_toNat, State.ringSum_toNat]

/-- Settles O8: the indices of a ring split into the listed ones and the rest, and each of the rest gives `SENTINEL`. -/
theorem unwrittenEntriesCountAsSentinel : Obligations.UnwrittenEntriesCountAsSentinel := by
  intro s k written hnodup hwritten hunwritten
  have hlisted : (written.map Prod.fst).map (fun i => (s.bufRead k i).toNat) = written.map fun e => e.2.toNat := by
    rw [List.map_map]
    exact List.map_congr_left fun e he => congrArg BitVec.toNat (hwritten e he)
  rw [State.average_toNat_eq_ringTotal_div, State.ringTotal_eq_sum_ringIndices,
    sum_map_eq_part_add_rest _ s.cfg.sentinel.toNat ringIndices_nodup hnodup (fun i _ => mem_ringIndices i)
      fun i hi => congrArg BitVec.toNat (hunwritten i hi),
    hlisted, ringIndices_length, List.length_map]

end Sys2Proof.Machine
end

section
/-! The decoder and the encoder are inverse (30_encoding.md section 4): what each check of the decoder lets through, and the
word of an operation by its fields. -/

namespace Sys2Proof

@[simp] theorem onPort_eq_ok {want p : Port} {r : Except Reject Instr} {i : Instr} :
    onPort want p r = .ok i ↔ p = want ∧ r = .ok i := by
  unfold onPort
  split <;> simp [*]

@[simp] theorem ifBare_eq_ok {w : Word} {i j : Instr} :
    ifBare w j = .ok i ↔ (bField w = 0#4 ∧ cField w = 0#4 ∧ dField w = 0#16) ∧ j = i := by
  unfold ifBare
  split <;> simp [*]

@[simp] theorem ifCell_eq_ok {i j : Instr} : ifCell j = .ok i ↔ j.wellFormed = true ∧ j = i := by
  unfold ifCell
  split <;> simp [*]

/-- R61: a command word is given by its fields. -/
theorem commandWord_eq_iff {op b c : BitVec 4} {d : Sample} {w : Word} :
    commandWord op b c d = w ↔
      zField w = 0#4 ∧ opField w = op ∧ bField w = b ∧ cField w = c ∧ dField w = d := by
  constructor
  · rintro rfl
    simp
  · rintro ⟨hz, rfl, rfl, rfl, rfl⟩
    exact commandWord_fields w hz

theorem decode_encode {i : Instr} (h : i.wellFormed = true) : decode i.port (encode i) = .ok i := by
  cases i <;> simp [encode, decode, Instr.port, h]

/-- A word that decodes is the word of a well-formed operation of its port: the opcode selects the operation, and the checks
of the arm pin its fields. -/
theorem encode_of_decode {p : Port} {w : Word} {i : Instr} (h : decode p w = .ok i) :
    i.wellFormed = true ∧ i.port = p ∧ encode i = w := by
  unfold decode at h
  split at h
  case isTrue => cases h
  case isFalse hz =>
  have hz := not_not.mp hz
  split at h
  case h_1 hop =>
    obtain ⟨hbare, rfl⟩ := ifBare_eq_ok.mp h
    exact ⟨rfl, rfl, commandWord_eq_iff.mpr ⟨hz, BitVec.eq_of_toNat_eq hop, hbare⟩⟩
  case h_2 hop | h_7 hop =>
    obtain ⟨rfl, h⟩ := onPort_eq_ok.mp h
    obtain ⟨hwf, rfl⟩ := ifCell_eq_ok.mp h
    exact ⟨hwf, rfl, commandWord_eq_iff.mpr ⟨hz, BitVec.eq_of_toNat_eq hop, rfl, rfl, rfl⟩⟩
  case h_3 hop | h_4 hop | h_5 hop | h_8 hop =>
    obtain ⟨rfl, h⟩ := onPort_eq_ok.mp h
    obtain ⟨hbare, rfl⟩ := ifBare_eq_ok.mp h
    exact ⟨rfl, rfl, commandWord_eq_iff.mpr ⟨hz, BitVec.eq_of_toNat_eq hop, hbare⟩⟩
  case h_6 hop =>
    obtain ⟨rfl, h⟩ := onPort_eq_ok.mp h
    split at h
    case isFalse => cases h
    case isTrue hd =>
    obtain ⟨hwf, rfl⟩ := ifCell_eq_ok.mp h
    exact ⟨hwf, rfl, commandWord_eq_iff.mpr ⟨hz, BitVec.eq_of_toNat_eq hop, rfl, rfl, hd⟩⟩
  case h_9 => cases h

/-- The decoder in one line: a word decodes to the well-formed operation of its port whose own word it is. -/
theorem decode_eq_ok_iff {p : Port} {w : Word} {i : Instr} :
    decode p w = .ok i ↔ i.wellFormed = true ∧ i.port = p ∧ encode i = w := by
  refine ⟨encode_of_decode, ?_⟩
  rintro ⟨hwf, rfl, rfl⟩
  exact decode_encode hwf

/-- Settles O27: each row's word carries its fields, and the opcode and checks of a word that decodes pin its operation. -/
theorem decodeAndEncodeAreInverse : Obligations.DecodeAndEncodeAreInverse :=
  ⟨fun _ => decode_encode, fun _ _ _ => encode_of_decode⟩

/-- Settles O29, by evaluating the decoder at each listed word. -/
theorem listedWordsDecodeAsListed : Obligations.ListedWordsDecodeAsListed := by
  unfold Obligations.ListedWordsDecodeAsListed
  decide

end Sys2Proof
end

section
/-! The opcode map beside the decoder (30_encoding.md section 4): masks and patterns field by field. -/

namespace Sys2Proof

/-- R61: two words are the same where all five fields are. -/
theorem word_eq_iff_fields {v w : Word} :
    v = w ↔ opField v = opField w ∧ zField v = zField w ∧ bField v = bField w ∧ cField v = cField w ∧
      dField v = dField w := by
  constructor
  · rintro rfl
    exact ⟨rfl, rfl, rfl, rfl, rfl⟩
  · rintro ⟨hop, hz, hb, hc, hd⟩
    apply BitVec.eq_of_toNat_eq
    rw [toNat_eq_fields v, toNat_eq_fields w, hop, hz, hb, hc, hd]

/-- A masked word matches a pattern where each masked field matches the pattern's. -/
theorem and_eq_iff_fields {w mask pattern : Word} :
    w &&& mask = pattern ↔
      opField w &&& opField mask = opField pattern ∧ zField w &&& zField mask = zField pattern ∧
      bField w &&& bField mask = bField pattern ∧ cField w &&& cField mask = cField pattern ∧
      dField w &&& dField mask = dField pattern := by
  rw [word_eq_iff_fields]
  simp only [opField, zField, bField, cField, dField, BitVec.extractLsb'_and]

/-- The mask of bits 23:21 is the check of batteryIndex. -/
theorem and_maskE_eq_zero_iff : ∀ b : BitVec 4, b &&& 0xE#4 = 0#4 ↔ battOk b = true := by decide

/-- The mask of bit 19 and the extra condition of a row are the check of cellIndex. -/
theorem and_mask8_eq_zero_and_cellOk_iff :
    ∀ c : BitVec 4, c &&& 0x8#4 = 0#4 ∧ cellOk c = true ↔ cellOk c = true := by decide

/-- A row without operands selects one word. -/
theorem selects_bare_iff {name : String} {ports : List Port} {pattern : Word} {p : Port} {w : Word} (op : BitVec 4)
    (hpattern : pattern = commandWord op 0#4 0#4 0#16) :
    (OpRow.mk name ports pattern 0xFFFFFFFF#32 false).selects p w = true ↔
      commandWord op 0#4 0#4 0#16 = w ∧ p ∈ ports := by
  have hmask : w &&& 0xFFFFFFFF#32 = w := BitVec.and_allOnes
  simp [OpRow.selects, hmask, hpattern, eq_comm (a := w)]

/-- What a row with a cell identity selects: its opcode, no reserved bit, a legal identity, and no data but where the mask
leaves the data free. -/
theorem selects_cell_iff {name : String} {ports : List Port} {pattern mask : Word} {p : Port} {w : Word} (op : BitVec 4)
    (hpattern : pattern = commandWord op 0#4 0#4 0#16)
    (hmask : opField mask = 0xF#4 ∧ zField mask = 0xF#4 ∧ bField mask = 0xE#4 ∧ cField mask = 0x8#4) :
    (OpRow.mk name ports pattern mask true).selects p w = true ↔
      (opField w = op ∧ zField w = 0#4 ∧ battOk (bField w) = true ∧ cellOk (cField w) = true ∧
        dField w &&& dField mask = 0#16) ∧ p ∈ ports := by
  obtain ⟨hop, hz, hb, hc⟩ := hmask
  have hones (x : BitVec 4) : x &&& 0xF#4 = x := BitVec.and_allOnes
  subst hpattern
  simp only [OpRow.selects, and_eq_iff_fields, hop, hz, hb, hc, hones, Bool.and_eq_true, decide_eq_true_eq,
    opField_commandWord, zField_commandWord, bField_commandWord, cField_commandWord, dField_commandWord,
    and_maskE_eq_zero_iff, List.contains_iff_mem, Bool.not_true, Bool.false_or]
  have hcell := and_mask8_eq_zero_and_cellOk_iff (cField w)
  tauto

/-- An operation with some property is one of the eight rows with it. -/
theorem exists_instr {P : Instr → Prop} :
    (∃ i, P i) ↔ (∃ p, P (.nop p)) ∨ (∃ b c d, P (.wr b c d)) ∨ P .adv ∨ P .tick ∨ P .red ∨ (∃ b c, P (.rdavg b c)) ∨
      (∃ b c v, P (.enc b c v)) ∨ P .seq := by
  constructor
  · rintro ⟨i, h⟩
    cases i <;> grind
  · grind

/-- A word selects a row exactly when it decodes to an operation of the row's name: both say which fields the word has. -/
theorem selects_iff_decode (p : Port) (w : Word) :
    ∀ row ∈ opcodeRows, row.selects p w = true ↔ ∃ i, decode p w = .ok i ∧ i.mnemonic = row.mnemonic := by
  have hfree : dField 0xFFE80000#32 = 0#16 := by decide
  have hfull : dField 0xFFE8FFFF#32 = BitVec.allOnes 16 := by decide
  simp only [opcodeRows, List.forall_mem_cons]
  rw [selects_bare_iff 0#4 (by decide), selects_cell_iff 1#4 (by decide) (by decide), selects_bare_iff 2#4 (by decide),
    selects_bare_iff 3#4 (by decide), selects_bare_iff 4#4 (by decide), selects_cell_iff 5#4 (by decide) (by decide),
    selects_cell_iff 6#4 (by decide) (by decide), selects_bare_iff 7#4 (by decide), hfree, hfull]
  simp only [exists_instr, decode_eq_ok_iff, encode, BitVec.and_allOnes]
  refine ⟨?nop, ?wr, ?adv, ?tick, ?red, ?rdavg, ?enc, ?seq, List.forall_mem_nil _⟩
  case nop => cases p <;> simp [Instr.mnemonic, Instr.port, Instr.wellFormed]
  all_goals
    simp [Instr.mnemonic, Instr.port, Instr.wellFormed, commandWord_eq_iff, eq_comm (b := p), and_comm, and_left_comm,
      and_assoc]

/-- Rows of the map have different names, so the rows of one name are at most one. -/
theorem length_rows_le_one {rows : List OpRow} (hsub : rows.Sublist opcodeRows) {name : String}
    (hname : ∀ row ∈ rows, row.mnemonic = name) : rows.length ≤ 1 := by
  have hdistinct : (rows.map OpRow.mnemonic).Nodup :=
    (hsub.map OpRow.mnemonic).nodup (by decide)
  rwa [List.map_eq_replicate_iff.mpr hname, List.nodup_replicate] at hdistinct

/-- Settles O28: row by row the two agree on the fields of the word; the rows selected have the one name of the operation
decoded. -/
theorem decoderAgreesWithTheOpcodeMap : Obligations.DecoderAgreesWithTheOpcodeMap := by
  intro p w
  refine ⟨selects_iff_decode p w, ?_⟩
  have hrow {row : OpRow} (h : row ∈ opcodeRows.filter fun row => row.selects p w) :
      ∃ i, decode p w = .ok i ∧ i.mnemonic = row.mnemonic := by
    obtain ⟨hmem, hsel⟩ := List.mem_filter.mp h
    exact (selects_iff_decode p w row hmem).mp hsel
  cases hd : decode p w with
  | error e =>
    have hnone : opcodeRows.filter (fun row => row.selects p w) = [] :=
      List.eq_nil_iff_forall_not_mem.mpr fun row h => by simpa [hd] using hrow h
    rw [hnone]
    exact Nat.zero_le 1
  | ok i =>
    refine length_rows_le_one List.filter_sublist (name := i.mnemonic) fun row h => ?_
    obtain ⟨j, hj, hname⟩ := hrow h
    rw [hd] at hj
    cases hj
    exact hname.symm

end Sys2Proof

namespace Sys2Proof.Machine

/-- R66: the receiver's nibbles and its 16-bit number are the fields of the frame. -/
theorem decodeFrame_encodeFrame (k : CellId) (v : Sample) :
    decodeFrame (encodeFrame k v) = (battBits k, cellBits k, v) := by
  have hcode : (highByte v).setWidth 16 <<< 8 ||| (lowByte v).setWidth 16 = v := by
    calc (highByte v).setWidth 16 <<< 8 ||| (lowByte v).setWidth 16
      _ = (highByte v ++ lowByte v).setWidth 16 := BitVec.setWidth_append_eq_shiftLeft_setWidth_or.symm
      _ = v := by rw [highByte_append_lowByte, BitVec.setWidth_eq]
  unfold decodeFrame
  rw [encodeFrame_byte0, BitVec.extractLsb'_append_eq_left, BitVec.extractLsb'_append_eq_right]
  exact congrArg (fun x => (battBits k, cellBits k, x)) hcode

/-- The fields of a cell identity name it. -/
theorem cell_eq_of_bits {k k' : CellId} (hb : battBits k = battBits k') (hc : cellBits k = cellBits k') : k = k' := by
  have h := cellOf_bits k
  rw [hb, hc, cellOf_bits] at h
  exact (Option.some.inj h).symm

theorem encodeFrame_injective {k k' : CellId} {v v' : Sample} (h : encodeFrame k v = encodeFrame k' v') :
    k = k' ∧ v = v' := by
  have hfields := decodeFrame_encodeFrame k v
  rw [h, decodeFrame_encodeFrame, Prod.mk.injEq, Prod.mk.injEq] at hfields
  obtain ⟨hb, hc, hv⟩ := hfields
  exact ⟨cell_eq_of_bits hb.symm hc.symm, hv.symm⟩

/-- The values of byte 0, in linear order of the cells. -/
theorem byte0_values : allCells.map (fun k => (encodeFrame k 0#16).byte0) =
    [0x00#8, 0x01#8, 0x02#8, 0x03#8, 0x04#8, 0x05#8, 0x10#8, 0x11#8, 0x12#8, 0x13#8, 0x14#8, 0x15#8] := by decide

/-- Settles O31: the receiver's decoding is a left inverse, so frames differ where cells or codes do; byte 0 is that of one of
the twelve cells. -/
theorem frameDecodingInvertsEncoding : Obligations.FrameDecodingInvertsEncoding := by
  refine ⟨decodeFrame_encodeFrame, fun k v k' v' => encodeFrame_injective, fun x => ?_⟩
  rw [← byte0_values, List.mem_map]
  constructor
  · rintro ⟨k, v, rfl⟩
    exact ⟨k, mem_allCells k, rfl⟩
  · rintro ⟨k, -, rfl⟩
    exact ⟨k, 0#16, rfl⟩

end Sys2Proof.Machine
end

section
/-! What an entry and a slot read as after each update that touches neither, and answers. -/

namespace Sys2Proof.Machine

@[simp] theorem State.bufRead_advanceCur (s : State) (k : CellId) (i : RingIndex) :
    s.advanceCur.bufRead k i = s.bufRead k i := rfl

@[simp] theorem State.bufRead_storeSlot (s : State) (k' k : CellId) (i : RingIndex) :
    (s.storeSlot k').bufRead k i = s.bufRead k i :=
  State.bufRead_congr (s.storeSlot_buf k') (s.storeSlot_cfg k') k i

@[simp] theorem State.bufRead_reduceAndRespond (s : State) (k : CellId) (i : RingIndex) :
    s.reduceAndRespond.bufRead k i = s.bufRead k i :=
  State.bufRead_congr s.reduceAndRespond_buf s.reduceAndRespond_cfg k i

@[simp] theorem State.readAvg_bufWrite (s : State) (k' k : CellId) (i : RingIndex) (v : Sample) :
    (s.bufWrite k' i v).readAvg k = s.readAvg k := rfl

@[simp] theorem State.readAvg_advanceCur (s : State) (k : CellId) : s.advanceCur.readAvg k = s.readAvg k := rfl

@[simp] theorem State.readAvg_respond (s : State) (p : Port) (r : Response) (k : CellId) :
    (s.respond p r).readAvg k = s.readAvg k :=
  State.readAvg_congr (s.respond_avg p r) k

@[simp] theorem State.readAvg_sampleAndAdvance (s : State) (k : CellId) : s.sampleAndAdvance.readAvg k = s.readAvg k :=
  State.readAvg_congr s.sampleAndAdvance_avg k

@[simp] theorem State.respond_w_rspW (s : State) (r : Response) : (s.respond .w r).rspW = s.rspW ++ [r] := rfl

@[simp] theorem State.respond_w_rspR (s : State) (r : Response) : (s.respond .w r).rspR = s.rspR := rfl

@[simp] theorem State.respond_r_rspR (s : State) (r : Response) : (s.respond .r r).rspR = s.rspR ++ [r] := rfl

@[simp] theorem State.respond_r_rspW (s : State) (r : Response) : (s.respond .r r).rspW = s.rspW := rfl

theorem answered_respond (s : State) (p : Port) (r : Response) : Answered p r s (s.respond p r) :=
  ⟨by simp, fun q hq => by simp [hq]⟩

end Sys2Proof.Machine
end

section
/-! The operations that write no slot and no entry: `NOP`, `ADV`, `RDAVG`, `ENC` (40_buffer_write.md sections 2 and 3;
41_reduce.md section 4; 42_encoder.md section 1), and the words whose fields name no cell. -/

namespace Sys2Proof.Machine

/-- Settles O2: the next state is the state with one answer. -/
theorem nopAnswersZeroAndChangesNothing : Obligations.NopAnswersZeroAndChangesNothing := by
  intro s p
  refine ⟨s.respond p (okResponse 0#32), rfl, answered_respond s p _, fun k i => s.bufRead_respond p _ k i,
    fun k => s.readAvg_respond p _ k, ?_⟩
  cases p <;> rfl

/-- Settles O3: the mask wraps as the remainder by 128 does. -/
theorem advMovesTheCursorByOne : Obligations.AdvMovesTheCursorByOne := fun s =>
  ⟨s.advanceCur.respond .w (okResponse 0#32), rfl, masked_increment s.cur, fun _ _ => rfl, fun _ => rfl,
    answered_w rfl rfl, rfl⟩

/-- `RDAVG` on the fields of a legal cell identity is one answer, the slot. -/
theorem exec_rdavg_of_fields (s : State) {b c : BitVec 4} {k : CellId} (hb : b.toNat = k.b.val) (hc : c.toNat = k.c.val) :
    exec (.rdavg b c) s = .next (s.respond .r (okResponse (s.readAvg k))) := by
  simp only [exec, execRdavg, State.onCell, cellOf_fields hb hc]

/-- `ENC` on the fields of a legal cell identity is one answer, the frame. -/
theorem exec_enc_of_fields (s : State) {b c : BitVec 4} {k : CellId} (v : Sample) (hb : b.toNat = k.b.val)
    (hc : c.toNat = k.c.val) :
    exec (.enc b c v) s = .next (s.respond .r (okResponse (frameWord (encodeFrame k v)))) := by
  simp only [exec, execEnc, State.onCell, cellOf_fields hb hc]

@[simp] theorem State.readAvg_powerOn (cfg : Config) (k : CellId) : (State.powerOn cfg).readAvg k = 0#32 := by
  simp [State.readAvg, State.powerOn, Vector.get_eq_getElem]

/-- Settles O9: the next state is the state with one answer, the slot. -/
theorem rdavgAnswersTheSlot : Obligations.RdavgAnswersTheSlot := by
  intro s b c k hb hc
  refine ⟨⟨_, exec_rdavg_of_fields s hb hc, answered_r rfl rfl, fun _ _ => rfl, fun _ => rfl, rfl⟩,
    fun h => h.slots_fit k, fun cfg => State.readAvg_powerOn cfg k⟩

/-- D2: the frame of an `ENC` is the low 24 bits of the operation's own command word. -/
theorem frameBits_eq_setWidth_encode {b c : BitVec 4} {k : CellId} (v : Sample) (hb : b.toNat = k.b.val)
    (hc : c.toNat = k.c.val) : frameBits (encodeFrame k v) = (encode (.enc b c v)).setWidth 24 := by
  have hv := v.isLt
  have hbound := c.isLt
  have hbatt := k.b.isLt
  have hword : (encode (.enc b c v)).toNat = 6 * 2 ^ 28 + b.toNat * 2 ^ 20 + c.toNat * 2 ^ 16 + v.toNat :=
    commandWord_toNat 6#4 b c v
  apply BitVec.eq_of_toNat_eq
  rw [frameBits_encodeFrame, toNat_append_eq_add, toNat_append_eq_add, battBits_toNat, cellBits_toNat, BitVec.toNat_setWidth,
    hword]
  omega

/-- Settles O10: the next state is the state with one answer, the frame, whose bits are those of the word. -/
theorem encAnswersTheFrame : Obligations.EncAnswersTheFrame := by
  intro s b c v k hb hc
  refine ⟨_, exec_enc_of_fields s v hb hc, answered_r rfl rfl, ?_, fun _ _ => rfl, fun _ => rfl, rfl⟩
  rw [frameWord, frameBits_eq_setWidth_encode v hb hc]

/-- Settles O15: fields that name no cell turn the word away, and that is one answer. -/
theorem illegalCellIsTurnedAway : Obligations.IllegalCellIsTurnedAway := by
  intro s b c d h
  have hcell (p : Port) (f : CellId → State) : s.onCell p b c f = s.turnAway p := by
    simp only [State.onCell, cellOf_illegal h]
  refine ⟨s.turnAway .w, s.turnAway .r, congrArg Host.Outcome.next (hcell .w _), answered_w rfl rfl, rfl,
    congrArg Host.Outcome.next (hcell .r _), congrArg Host.Outcome.next (hcell .r _), answered_r rfl rfl, rfl,
    fun _ _ => rfl, fun _ _ => rfl⟩

end Sys2Proof.Machine
end

section
/-! The sequencer (43_sequencer.md): one `SEQ`, and the cells that `SEQ` after `SEQ` sends. -/

namespace Sys2Proof.Machine

/-- The state of the sequencer after one `SEQ`. -/
def SeqState.next (q : SeqState) : SeqState := .sending (nextCell q)

/-- The cells that the next `n` `SEQ` send. -/
def SeqState.cells : Nat → SeqState → List CellId
  | 0, _ => []
  | n + 1, q => nextCell q :: SeqState.cells n q.next

@[simp] theorem SeqState.cells_length (n : Nat) (q : SeqState) : (q.cells n).length = n := by
  induction n generalizing q with
  | zero => rfl
  | succ n ih => rw [SeqState.cells, List.length_cons, ih]

/-- The frame of a cell with the low 16 bits of its slot. -/
def State.frameOf (s : State) (k : CellId) : Frame := encodeFrame k (voltageCode (s.readAvg k))

/-- R120: the state after one `SEQ`. -/
theorem exec_seq (s : State) :
    exec .seq s = .next (((s.setSending (nextCell s.seq)).emitTx (s.frameOf (nextCell s.seq))).respond .r
      (okResponse (frameWord (s.frameOf (nextCell s.seq))))) := rfl

/-- The clause on the next cell in numbers: cellIndex one on mod 6, batteryIndex one on mod 2 on its wraparound. -/
theorem nextCell_eq_of_numbers {q : SeqState} {k : CellId}
    (h : (q = .idle ∧ k.b = 0 ∧ k.c = 0) ∨
      ∃ k0, q = .sending k0 ∧ k.c.val = (k0.c.val + 1) % 6 ∧
        k.b.val = if k.c.val = 0 then (k0.b.val + 1) % 2 else k0.b.val) : nextCell q = k := by
  obtain ⟨b, c⟩ := k
  rcases h with ⟨rfl, rfl, rfl⟩ | ⟨⟨b0, c0⟩, rfl, hc, hb⟩
  · rfl
  · revert b c b0 c0
    decide

/-- Settles O11: the numbers of the statement name the next cell, and the state after one `SEQ` is written out. -/
theorem seqSendsTheNextCell : Obligations.SeqSendsTheNextCell := by
  intro s k h
  obtain rfl := nextCell_eq_of_numbers h
  exact ⟨_, exec_seq s, rfl, rfl, answered_r rfl rfl, fun _ _ => rfl, fun _ => rfl, rfl⟩

/-- Settles O12: `RDAVG` answers the slot and `ENC` the frame of its low 16 bits, which is the frame `SEQ` answers. -/
theorem seqAnswersAsRdavgThenEnc : Obligations.SeqAnswersAsRdavgThenEnc := by
  intro s
  exact ⟨_, _, _, s.readAvg (nextCell s.seq), frameWord (s.frameOf (nextCell s.seq)),
    exec_seq s, rfl, answered_r rfl rfl,
    exec_rdavg_of_fields s (battBits_toNat _) (cellBits_toNat _), answered_r rfl rfl,
    exec_enc_of_fields _ _ (battBits_toNat _) (cellBits_toNat _), answered_r rfl rfl⟩

/-- What `n` `SEQ` in a row leave: the sequencer `n` cells on, and the frames of these cells emitted. -/
theorem execAll_replicate_seq (n : Nat) (s : State) :
    ∃ t, execAll (List.replicate n .seq) s = .next t ∧ t.seq = SeqState.next^[n] s.seq ∧
      t.txlog = s.txlog ++ (s.seq.cells n).map s.frameOf := by
  induction n generalizing s with
  | zero => exact ⟨s, rfl, rfl, by simp [SeqState.cells]⟩
  | succ n ih =>
    obtain ⟨t, hrun, hseq, hlog⟩ := ih (((s.setSending (nextCell s.seq)).emitTx (s.frameOf (nextCell s.seq))).respond .r
      (okResponse (frameWord (s.frameOf (nextCell s.seq)))))
    exact ⟨t, hrun, hseq, hlog.trans (List.append_assoc ..)⟩

/-- The linear number of the cell that a sequencer at `k` sends next. -/
theorem cellLin_nextCell_sending : ∀ k : CellId, (cellLin (nextCell (.sending k))).val = ((cellLin k).val + 1) % 12 := by
  rintro ⟨b, c⟩
  revert b c
  decide

/-- From `Idle`, `n + 1` `SEQ` lead to the cell with linear number `n mod 12`. -/
theorem seqState_after_succ (n : Nat) :
    ∃ k, SeqState.next^[n + 1] .idle = .sending k ∧ (cellLin k).val = n % 12 := by
  induction n with
  | zero => exact ⟨⟨0, 0⟩, rfl, rfl⟩
  | succ n ih =>
    obtain ⟨k, hk, hlin⟩ := ih
    refine ⟨nextCell (.sending k), by rw [Function.iterate_succ_apply', hk]; rfl, ?_⟩
    rw [cellLin_nextCell_sending, hlin]
    omega

/-- Settles O13, by induction on the number of `SEQ`. -/
theorem nthSeqSendsCellNMinusOneModTwelve : Obligations.NthSeqSendsCellNMinusOneModTwelve := by
  intro n s hidle
  obtain ⟨t, hrun, hseq, hlog⟩ := execAll_replicate_seq (n + 1) s
  obtain ⟨k, hk, hlin⟩ := seqState_after_succ n
  exact ⟨t, k, hrun, by rw [hseq, hidle, hk], hlin, by simp [hlog]⟩

/-- Any 12 cells in a row are all the cells: 13 states of the sequencer. -/
theorem seqState_cells_twelve_perm (q : SeqState) : (q.cells 12).Perm allCells := by
  cases q with
  | idle => decide
  | sending k =>
    obtain ⟨b, c⟩ := k
    revert b c
    decide

/-- Settles O14: the frames of 12 `SEQ` are those of the 12 cells in a row from where the sequencer stands. -/
theorem twelveSeqSendEveryCellOnce : Obligations.TwelveSeqSendEveryCellOnce := by
  intro s
  obtain ⟨t, hrun, -, hlog⟩ := execAll_replicate_seq 12 s
  exact ⟨t, s.seq.cells 12, hrun, seqState_cells_twelve_perm s.seq, hlog⟩

end Sys2Proof.Machine
end

section
/-! The reduce as arithmetic (41_reduce.md section 2). -/

namespace Sys2Proof.Machine

theorem State.ringTotal_le (s : State) (k : CellId) : s.ringTotal k ≤ 8388480 := by
  rw [State.ringTotal_eq_sum]
  simpa using sum_toNat_le (s.ring k)

theorem State.average_lt (s : State) (k : CellId) : (s.average k).toNat < 2 ^ 16 := by
  have hle := s.ringTotal_le k
  rw [State.average_toNat_eq_ringTotal_div]
  omega

/-- Settles O16: 128 samples are too few for the 32-bit sum to wrap. -/
theorem ringSumNeverWraps : Obligations.RingSumNeverWraps := fun s k =>
  ⟨s.ringSum_toNat k, s.ringTotal_le k, s.average_toNat_eq_ringTotal_div k, s.average_lt k⟩

/-- Settles O17: the sum of 128 entries lies between 128 times either bound. -/
theorem averageLiesBetweenTheEntries : Obligations.AverageLiesBetweenTheEntries := by
  intro s k lo hi hbounds
  have hlow := (ringIndices.map fun i => (s.bufRead k i).toNat).card_nsmul_le_sum lo
    (List.forall_mem_map.mpr fun i _ => (hbounds i).1)
  have hhigh := (ringIndices.map fun i => (s.bufRead k i).toNat).sum_le_card_nsmul hi
    (List.forall_mem_map.mpr fun i _ => (hbounds i).2)
  rw [← State.ringTotal_eq_sum_ringIndices, List.length_map, ringIndices_length, smul_eq_mul] at hlow hhigh
  rw [State.average_toNat_eq_ringTotal_div]
  omega

end Sys2Proof.Machine
end

section
/-! `RED` (41_reduce.md section 3): what the reduce of a write-side operation leaves under each granularity. -/

namespace Sys2Proof.Machine

/-! Under `Tick` every slot holds the average of its ring, and the operation has answered. -/

section
variable {s : State} (h : s.cfg.granularity = .tick)
include h

theorem State.readAvg_reduceAndRespond_tick (k : CellId) : s.reduceAndRespond.readAvg k = s.average k := by
  rw [s.reduceAndRespond_tick h, State.readAvg_respond, State.readAvg_reduce]

theorem State.publishing_reduceAndRespond_tick : s.reduceAndRespond.publishing = s.publishing := by
  rw [s.reduceAndRespond_tick h, State.respond_publishing, State.reduce_publishing]

theorem State.rspW_reduceAndRespond_tick : s.reduceAndRespond.rspW = s.rspW ++ [okResponse 0#32] := by
  rw [s.reduceAndRespond_tick h, State.respond_w_rspW, State.reduce_rspW]

end

/-! Under `Slot` the results are owed, and nothing else has changed. -/

section
variable {s : State} (h : s.cfg.granularity = .slot)
include h

theorem State.readAvg_reduceAndRespond_slot (k : CellId) : s.reduceAndRespond.readAvg k = s.readAvg k := by
  rw [s.reduceAndRespond_slot h]
  rfl

theorem State.publishing_reduceAndRespond_slot : s.reduceAndRespond.publishing = s.reduceResults := by
  rw [s.reduceAndRespond_slot h]

theorem State.rspW_reduceAndRespond_slot : s.reduceAndRespond.rspW = s.rspW := by
  rw [s.reduceAndRespond_slot h]

end

/-- Each result of a reduce is the floor mean of its cell's ring. -/
theorem State.toNat_of_mem_reduceResults {s : State} {e : CellId × Word} (h : e ∈ s.reduceResults) :
    e.2.toNat = s.ringTotal e.1 / 128 := by
  obtain ⟨k, -, rfl⟩ := List.mem_map.mp h
  exact s.average_toNat_eq_ringTotal_div k

/-- In the reset state every average is `SENTINEL`: no entry of the ring is written. -/
theorem average_powerOn_toNat (cfg : Config) (k : CellId) : ((State.powerOn cfg).average k).toNat = cfg.sentinel.toNat := by
  rw [unwrittenEntriesCountAsSentinel (State.powerOn cfg) k [] List.nodup_nil (by simp) (fun _ _ => rfl)]
  show (0 + 128 * cfg.sentinel.toNat) / 128 = cfg.sentinel.toNat
  omega

/-- Settles O7: the law of the reduce under each granularity; a second reduce sees the same rings. -/
theorem redStoresTheFloorMeanOfEveryRing : Obligations.RedStoresTheFloorMeanOfEveryRing := by
  refine ⟨fun s => ⟨s.reduceAndRespond, rfl, s.bufRead_reduceAndRespond, fun htick => ?_, fun hslot => ?_⟩,
    average_powerOn_toNat⟩
  · refine ⟨fun k => ?mean, answered_w (State.rspW_reduceAndRespond_tick htick) s.reduceAndRespond_rspR, ?frame,
      s.reduceAndRespond.reduceAndRespond, rfl, State.avg_ext fun k => ?again⟩
    case mean => rw [State.readAvg_reduceAndRespond_tick htick, State.average_toNat_eq_ringTotal_div]
    case frame => rw [s.reduceAndRespond_frame, State.publishing_reduceAndRespond_tick htick]
    case again =>
      have htick' : s.reduceAndRespond.cfg.granularity = .tick := by rw [s.reduceAndRespond_cfg, htick]
      rw [State.readAvg_reduceAndRespond_tick htick', State.readAvg_reduceAndRespond_tick htick,
        State.average_congr k (s.bufRead_reduceAndRespond k)]
  · rw [s.reduceAndRespond_slot hslot]
    exact ⟨s.reduceResults_keys, fun e => State.toNat_of_mem_reduceResults, rfl⟩

end Sys2Proof.Machine
end

section
/-! Reset (70_reset_and_hazards.md section 1). -/

namespace Sys2Proof.Machine

theorem legalSentinel_ne_zero (n : Fin 65535) : Config.legalSentinel n ≠ 0#16 := by
  have hn := n.isLt
  intro h
  have h := congrArg BitVec.toNat h
  simp only [Config.legalSentinel, BitVec.toNat_ofNat] at h
  omega

theorem defaultRoute_nodup : defaultRoute.toList.Nodup := by decide

theorem standardConfig_wf : standardConfig.wf := ⟨legalSentinel_ne_zero _, defaultRoute_nodup⟩

/-- Settles O24: the fields of the reset state as written. -/
theorem resetStateIsAsStated : Obligations.ResetStateIsAsStated :=
  ⟨fun cfg => ⟨fun _ _ => rfl, State.readAvg_powerOn cfg, rfl, rfl, rfl, rfl, fun p => by cases p <;> rfl,
    fun p => by cases p <;> rfl⟩, standardConfig, standardConfig_wf, rfl⟩

/-- Settles O25: with the pin high the step is the reset event. -/
theorem resetPinTakesTheResetState : Obligations.ResetPinTakesTheResetState := by
  intro s hrst
  refine ⟨s.assertReset, if_pos hrst, ⟨fun _ _ => rfl, rfl, fun _ => rfl, rfl, rfl, rfl⟩, fun p => by cases p <;> rfl,
    fun p => by cases p <;> rfl, rfl, rfl, rfl, rfl, rfl⟩

theorem average_powerOn (cfg : Config) (k : CellId) : (State.powerOn cfg).average k = cfg.sentinel.setWidth 32 := by
  have hlt := cfg.sentinel.isLt
  apply BitVec.eq_of_toNat_eq
  rw [average_powerOn_toNat, BitVec.toNat_setWidth]
  omega

/-- Settles O26: 0 is no legal sentinel, and the average of an unwritten ring is `SENTINEL`. -/
theorem resetRunsNoReduce : Obligations.ResetRunsNoReduce := by
  rintro cfg ⟨hsentinel, -⟩
  refine ⟨fun k => ⟨State.readAvg_powerOn cfg k, fun h => hsentinel ?_⟩, (State.powerOn cfg).reduceAndRespond, rfl,
    fun htick k => ?_, fun hslot => ?_⟩
  · have h := congrArg (BitVec.setWidth 16) ((State.readAvg_powerOn cfg k).symm.trans h)
    simpa using h.symm
  · rw [State.readAvg_reduceAndRespond_tick htick, average_powerOn]
  · rw [State.publishing_reduceAndRespond_slot hslot]
    exact List.map_congr_left fun k _ => congrArg (Prod.mk k) (average_powerOn cfg k)

theorem inv_powerOn {cfg : Config} (h : cfg.wf) : (State.powerOn cfg).Inv where
  legal_cfg := h
  canonical := rfl
  slots_fit k := by rw [State.readAvg_powerOn]; decide
  owed_fit := List.forall_mem_nil _
  owed_once := List.nodup_nil
  owed_slot h := absurd rfl h

/-- Settles O42: nothing is listed or owed at reset, and every slot is 0. -/
theorem resetStateMeetsTheInvariant : Obligations.ResetStateMeetsTheInvariant :=
  ⟨fun _ => inv_powerOn, inv_powerOn standardConfig_wf⟩

end Sys2Proof.Machine
end

section
/-! The router (40_buffer_write.md section 4). -/

namespace Sys2Proof.Machine

/-- A legal route of 12 channels without a repeat among 12 cells leaves no cell out. -/
theorem routeOf_surjective {cfg : Config} (h : cfg.wf) (k : CellId) : ∃ ch, routeOf cfg ch = k := by
  have hinj : Function.Injective fun ch => cellLin (routeOf cfg ch) :=
    fun a b hab => routeOf_injective h a b (cellLin_inj hab)
  obtain ⟨ch, hch⟩ := Finite.surjective_of_injective hinj (cellLin k)
  exact ⟨ch, cellLin_inj hch⟩

/-- Settles O32: a legal route is injective, and an injection among 12 is onto. -/
theorem everyCellHasExactlyOneChannel : Obligations.EveryCellHasExactlyOneChannel := by
  refine ⟨fun cfg h k => ?_, defaultRoute_nodup⟩
  obtain ⟨ch, hch⟩ := routeOf_surjective h k
  exact ⟨ch, hch, fun ch' hch' => routeOf_injective h ch' ch (hch'.trans hch.symm)⟩

end Sys2Proof.Machine
end

section
/-! `TICK` (40_buffer_write.md section 5): its writes and advance, then its end by the policy. -/

namespace Sys2Proof.Machine

/-- The end of a tick that has sampled and advanced: the reduce if the policy asks for it, else the answer. -/
def State.finishTick (s : State) : State :=
  if s.reduceDue then s.reduceAndRespond else s.respond .w (okResponse 0#32)

theorem exec_tick (s : State) : exec .tick s = .next s.sampleAndAdvance.finishTick := rfl

/-- The end of a tick changes `AVG`, the owed stores and the responses of port W alone. -/
theorem State.finishTick_frame (s : State) :
    s.finishTick = { s with
      avg := s.finishTick.avg
      publishing := s.finishTick.publishing
      rspW := s.finishTick.rspW } := by
  unfold State.finishTick
  split
  · exact s.reduceAndRespond_frame
  · rfl

@[simp] theorem State.finishTick_cur (s : State) : s.finishTick.cur = s.cur := by rw [State.finishTick_frame]
@[simp] theorem State.finishTick_seq (s : State) : s.finishTick.seq = s.seq := by rw [State.finishTick_frame]
@[simp] theorem State.finishTick_txlog (s : State) : s.finishTick.txlog = s.txlog := by rw [State.finishTick_frame]
@[simp] theorem State.finishTick_rspR (s : State) : s.finishTick.rspR = s.rspR := by rw [State.finishTick_frame]
@[simp] theorem State.finishTick_samples (s : State) : s.finishTick.samples = s.samples := by rw [State.finishTick_frame]
@[simp] theorem State.finishTick_draws (s : State) : s.finishTick.draws = s.draws := by rw [State.finishTick_frame]
@[simp] theorem State.finishTick_cfg (s : State) : s.finishTick.cfg = s.cfg := by rw [State.finishTick_frame]
@[simp] theorem State.bufRead_finishTick (s : State) (k : CellId) (i : RingIndex) :
    s.finishTick.bufRead k i = s.bufRead k i := by rw [State.finishTick_frame]; rfl

/-- The tick that wrote index 127, or any tick under `EveryTick`, ends with the reduce. -/
theorem State.finishTick_of_due {s : State} (h : s.cfg.policy = .everyTick ∨ s.cur = 127#7) :
    s.sampleAndAdvance.finishTick = s.sampleAndAdvance.reduceAndRespond :=
  if_pos (s.reduceDue_iff.mpr h)

/-- Every other tick ends with its answer. -/
theorem State.finishTick_of_not_due {s : State} (h : ¬(s.cfg.policy = .everyTick ∨ s.cur = 127#7)) :
    s.sampleAndAdvance.finishTick = s.sampleAndAdvance.respond .w (okResponse 0#32) :=
  if_neg (mt s.reduceDue_iff.mp h)

theorem State.consumeSamples_cons {s : State} {x : Samples} {rest : List Samples} (h : s.samples = x :: rest) :
    s.sampleReading = x ∧ s.consumeSamples.samples = rest ∧ s.consumeSamples.draws = s.draws := by
  simp [State.sampleReading, State.consumeSamples, h]

theorem State.consumeSamples_nil {s : State} (h : s.samples = []) :
    s.consumeSamples.samples = [] ∧ s.consumeSamples.draws = s.draws + 1 := by
  simp [State.consumeSamples, h]

/-- Settles O4: the laws of a tick's writes, advance and reading, which its end leaves alone. -/
theorem tickWritesEverySampleAndAdvances : Obligations.TickWritesEverySampleAndAdvances := by
  intro s hwf
  refine ⟨_, exec_tick s, fun ch => ?_, fun k i hi => ?_, ?_, fun x rest h => ?_, fun h => ?_, ?_⟩
  · rw [State.bufRead_finishTick, s.sampleAndAdvance_routed hwf]
  · rw [State.bufRead_finishTick, s.sampleAndAdvance_other k i hi]
  · rw [State.finishTick_cur, State.sampleAndAdvance_cur, masked_increment]
  · rw [State.finishTick_samples, State.finishTick_draws, State.sampleAndAdvance_samples, State.sampleAndAdvance_draws]
    exact State.consumeSamples_cons h
  · rw [State.finishTick_samples, State.finishTick_draws, State.sampleAndAdvance_samples, State.sampleAndAdvance_draws]
    exact State.consumeSamples_nil h
  · rw [State.finishTick_frame, State.sampleAndAdvance_frame]

/-- Settles O5: the end of a tick by the policy, and the law of the reduce under each granularity. -/
theorem tickReducesByThePolicy : Obligations.TickReducesByThePolicy := by
  intro s
  refine ⟨_, exec_tick s, fun hdue => ?_, fun hdue htick => ?_, fun hdue hslot => ?_⟩
  · rw [State.finishTick_of_not_due hdue]
    exact ⟨fun k => by simp, by simp, answered_w (by simp) (by simp)⟩
  · have htick' : s.sampleAndAdvance.cfg.granularity = .tick := by rw [State.sampleAndAdvance_cfg, htick]
    rw [State.finishTick_of_due hdue]
    refine ⟨fun k => ?_, ?_, answered_w ?_ (by simp)⟩
    · rw [State.readAvg_reduceAndRespond_tick htick', State.average_toNat_eq_ringTotal_div,
        State.ringTotal_congr k (State.bufRead_reduceAndRespond _ k)]
    · rw [State.publishing_reduceAndRespond_tick htick', State.sampleAndAdvance_publishing]
    · rw [State.rspW_reduceAndRespond_tick htick', State.sampleAndAdvance_rspW]
  · have hslot' : s.sampleAndAdvance.cfg.granularity = .slot := by rw [State.sampleAndAdvance_cfg, hslot]
    rw [State.finishTick_of_due hdue]
    refine ⟨fun k => ?_, ?_, fun e he => ?_, ?_, by simp⟩
    · rw [State.readAvg_reduceAndRespond_slot hslot', State.readAvg_sampleAndAdvance]
    · rw [State.publishing_reduceAndRespond_slot hslot']
      exact State.reduceResults_keys _
    · rw [State.publishing_reduceAndRespond_slot hslot'] at he
      rw [State.toNat_of_mem_reduceResults he, State.ringTotal_congr e.1 (State.bufRead_reduceAndRespond _ e.1)]
    · rw [State.rspW_reduceAndRespond_slot hslot', State.sampleAndAdvance_rspW]

end Sys2Proof.Machine
end

section
/-! `TICK` beside its 12 `WR`, `ADV` and `RED` (40_buffer_write.md section 5). -/

namespace Sys2Proof.Machine

/-- The `WR` of the routed samples of these channels, in this order. -/
def routedWrites (cfg : Config) (x : Samples) (order : List (Fin 12)) : List Instr :=
  order.map fun ch => .wr (battBits (routeOf cfg ch)) (cellBits (routeOf cfg ch)) (x.get ch)

/-- `WR` of routed samples writes each sample at the cursor of its cell, in whatever order, and touches nothing else of the
block. -/
theorem execAll_routedWrites {cfg : Config} (hwf : cfg.wf) (x : Samples) (order : List (Fin 12)) (s : State) :
    ∃ u, execAll (routedWrites cfg x order) s = .next u ∧
      u = { s with buf := u.buf, rspW := u.rspW } ∧
      (∀ ch ∈ order, u.bufRead (routeOf cfg ch) s.cur = x.get ch) ∧
      ∀ k i, (i = s.cur → ∀ ch ∈ order, routeOf cfg ch ≠ k) → u.bufRead k i = s.bufRead k i := by
  induction order generalizing s with
  | nil => exact ⟨s, rfl, rfl, List.forall_mem_nil _, fun _ _ _ => rfl⟩
  | cons ch order ih =>
    obtain ⟨u, hrun, hframe, hin, hout⟩ := ih ((s.bufWrite (routeOf cfg ch) s.cur (x.get ch)).respond .w (okResponse 0#32))
    simp only [State.respond_cur, State.bufWrite_cur, State.bufRead_respond] at hin hout
    refine ⟨u, ?_, by rw [hframe]; rfl, fun c hc => ?_, fun k i h => ?_⟩
    · rw [routedWrites, List.map_cons, execAll, exec_wr_of_fields s _ (battBits_toNat _) (cellBits_toNat _)]
      exact hrun
    · by_cases hmem : c ∈ order
      · exact hin c hmem
      · have hother (d : Fin 12) (hd : d ∈ order) : routeOf cfg d ≠ routeOf cfg c :=
          fun he => hmem (routeOf_injective hwf d c he ▸ hd)
        obtain rfl : c = ch := (List.mem_cons.mp hc).resolve_right hmem
        rw [hout _ _ fun _ => hother, State.bufRead_bufWrite, if_pos ⟨rfl, rfl⟩]
    · rw [hout k i fun hi d hd => h hi d (List.mem_cons_of_mem _ hd), State.bufRead_bufWrite, if_neg]
      rintro ⟨hk, hi⟩
      exact h hi ch List.mem_cons_self hk.symm

/-- A reduce keeps two states alike whose blocks and parameters are alike. -/
theorem sameBlock_reduceAndRespond {s t : State} (h : SameBlock s t) (hcfg : t.cfg = s.cfg) :
    SameBlock s.reduceAndRespond t.reduceAndRespond := by
  obtain ⟨hbuf, hcur, havg, hseq, hlog, howed⟩ := h
  have hmean (k : CellId) : t.average k = s.average k := State.average_congr k (hbuf k)
  have hresults : t.reduceResults = s.reduceResults := List.map_congr_left fun k _ => congrArg (Prod.mk k) (hmean k)
  refine ⟨fun k i => by simp [hbuf k i], by simp [hcur], fun k => ?avg, by simp [hseq], by simp [hlog], ?owed⟩
  all_goals cases hg : s.cfg.granularity
  case avg.tick =>
    rw [State.readAvg_reduceAndRespond_tick hg, State.readAvg_reduceAndRespond_tick (hcfg ▸ hg), hmean]
  case avg.slot => rw [State.readAvg_reduceAndRespond_slot hg, State.readAvg_reduceAndRespond_slot (hcfg ▸ hg), havg]
  case owed.tick =>
    rw [State.publishing_reduceAndRespond_tick hg, State.publishing_reduceAndRespond_tick (hcfg ▸ hg), howed]
  case owed.slot =>
    rw [State.publishing_reduceAndRespond_slot hg, State.publishing_reduceAndRespond_slot (hcfg ▸ hg), hresults]

/-- The 12 `WR` of the routed samples and `ADV` leave the block as a tick's sampling and advance do. -/
theorem execAll_routedWrites_adv {s : State} {order : List (Fin 12)} (hwf : s.cfg.wf) (horder : order.Perm channels) :
    ∃ u, execAll (routedWrites s.cfg s.sampleReading order ++ [.adv]) s = .next u ∧ SameBlock s.sampleAndAdvance u ∧
      u.cfg = s.cfg := by
  obtain ⟨u, hrun, hframe, hin, hout⟩ := execAll_routedWrites hwf s.sampleReading order s
  have hall (ch : Fin 12) : ch ∈ order := horder.mem_iff.mpr (mem_channels ch)
  refine ⟨u.advanceCur.respond .w (okResponse 0#32), by rw [execAll_append _ _ _ _ hrun]; rfl, ?_, by rw [hframe]; rfl⟩
  refine ⟨fun k i => ?buf, ?cur, fun k => ?avg, ?seq, ?txlog, ?publishing⟩
  case buf =>
    rw [State.bufRead_respond, State.bufRead_advanceCur]
    by_cases hi : i = s.cur
    · obtain ⟨ch, rfl⟩ := routeOf_surjective hwf k
      rw [hi, hin ch (hall ch), s.sampleAndAdvance_routed hwf]
    · rw [hout k i (absurd · hi), s.sampleAndAdvance_other k i hi]
  all_goals
    rw [hframe, s.sampleAndAdvance_frame]
    rfl

/-- Settles O6: the writes and `ADV` leave what the tick's sampling and advance leave, and a reduce keeps that alike. -/
theorem tickIsTwelveWritesThenAdvanceThenReduce : Obligations.TickIsTwelveWritesThenAdvanceThenReduce := by
  intro s order hwf horder
  obtain ⟨u, hrun, hsame, hcfg⟩ := execAll_routedWrites_adv hwf horder
  by_cases hdue : s.cfg.policy = .everyTick ∨ s.cur = 127#7
  · refine ⟨_, u.reduceAndRespond, exec_tick s, ?_, ?_⟩
    · rw [if_pos hdue]
      exact execAll_append _ _ _ _ hrun
    · rw [State.finishTick_of_due hdue]
      exact sameBlock_reduceAndRespond hsame (by rw [hcfg, State.sampleAndAdvance_cfg])
  · refine ⟨_, u, exec_tick s, ?_, ?_⟩
    · rw [if_neg hdue, List.append_nil]
      exact hrun
    · rw [State.finishTick_of_not_due hdue]
      exact hsame

end Sys2Proof.Machine
end

section
/-! What a ring holds after writes at the cursor, each followed by an advance (41_reduce.md section 5; 40_buffer_write.md
section 5). -/

namespace Sys2Proof.Machine

@[simp] theorem and_curMask (c : RingIndex) : c &&& curMask = c := by
  have h : curMask = BitVec.allOnes 7 := by decide
  rw [h, BitVec.and_allOnes]

/-- Since the cursor stood at `start`, the samples `ds` have been written to the ring of `k`, oldest first, each followed by
an advance: the last 128 of them are there. -/
structure RingHolds (s : State) (k : CellId) (start : RingIndex) (ds : List Sample) : Prop where
  cur_eq : s.cur = start + BitVec.ofNat 7 ds.length
  entry : ∀ j (hj : j < ds.length), ds.length ≤ j + 128 → s.bufRead k (start + BitVec.ofNat 7 j) = ds[j]

theorem ringHolds_nil (s : State) (k : CellId) : RingHolds s k s.cur [] :=
  ⟨(BitVec.add_zero _).symm, fun _ hj => absurd hj (Nat.not_lt_zero _)⟩

/-- One more sample at the cursor, then the advance: the entry it replaces is older than the last 128. -/
theorem RingHolds.append {s t : State} {k : CellId} {start : RingIndex} {ds : List Sample} {d : Sample}
    (h : RingHolds s k start ds) (hwrite : t.bufRead k s.cur = d)
    (hother : ∀ i, i ≠ s.cur → t.bufRead k i = s.bufRead k i) (hcur : t.cur = s.cur + 1#7) :
    RingHolds t k start (ds ++ [d]) := by
  obtain ⟨hs, hentry⟩ := h
  refine ⟨?_, fun j hj hrecent => ?_⟩
  · rw [hcur, hs, List.length_append, List.length_singleton, BitVec.ofNat_add, BitVec.add_assoc]
  rw [List.length_append, List.length_singleton] at hj hrecent
  obtain hlast | hlt : j = ds.length ∨ j < ds.length := by omega
  · subst hlast
    rw [← hs, hwrite, List.getElem_concat_length rfl]
  · have hne : start + BitVec.ofNat 7 j ≠ s.cur := by
      rw [hs]
      intro he
      have hmod := congrArg BitVec.toNat (add_left_cancel he)
      simp only [BitVec.toNat_ofNat] at hmod
      omega
    rw [hother _ hne, hentry j hlt (by omega), List.getElem_append_left hlt]

/-- Reading a ring from any index round is reading all of it. -/
theorem ringIndices_map_add_perm (start : RingIndex) : (ringIndices.map (start + ·)).Perm ringIndices := by
  refine (List.perm_ext_iff_of_nodup (ringIndices_nodup.map (add_right_injective start)) ringIndices_nodup).mpr fun i => ?_
  exact iff_of_true (List.mem_map.mpr ⟨i - start, mem_ringIndices _, add_sub_cancel start i⟩) (mem_ringIndices i)

/-- A ring that has taken 128 samples or more sums to its last 128. -/
theorem RingHolds.ringTotal_eq {s : State} {k : CellId} {start : RingIndex} {ds : List Sample}
    (h : RingHolds s k start ds) (hlen : 128 ≤ ds.length) :
    s.ringTotal k = ((ds.drop (ds.length - 128)).map BitVec.toNat).sum := by
  have hentries : (ringIndices.map (start + BitVec.ofNat 7 (ds.length - 128) + ·)).map (s.bufRead k) =
      ds.drop (ds.length - 128) := by
    refine List.ext_getElem (by simp; omega) fun j hj _ => ?_
    have hj : j < 128 := by simpa using hj
    rw [List.getElem_drop, ← h.entry (ds.length - 128 + j) (by omega) (by omega), List.getElem_map, List.getElem_map,
      BitVec.ofNat_add, BitVec.add_assoc]
    simp [ringIndices]
  rw [State.ringTotal_eq_sum_ringIndices,
    ← ((ringIndices_map_add_perm (start + BitVec.ofNat 7 (ds.length - 128))).map fun i => (s.bufRead k i).toNat).sum_eq,
    ← hentries, List.map_map, List.map_map, List.map_map]
  rfl

/-- The state after `WR` of `d` to the cell `k`, then `ADV`. -/
def State.afterWrAdv (s : State) (k : CellId) (d : Sample) : State :=
  ((s.bufWrite k s.cur d).respond .w (okResponse 0#32)).advanceCur.respond .w (okResponse 0#32)

theorem RingHolds.afterWrAdv {s : State} {k : CellId} {start : RingIndex} {ds : List Sample} (h : RingHolds s k start ds)
    (d : Sample) : RingHolds (s.afterWrAdv k d) k start (ds ++ [d]) := by
  refine h.append ?_ (fun i hi => ?_) (and_curMask _)
  · simp [State.afterWrAdv, State.bufRead_bufWrite]
  · simp [State.afterWrAdv, State.bufRead_bufWrite, hi]

/-- `WR` to one cell then `ADV`, for each sample of a list. -/
theorem execAll_wr_adv {b c : BitVec 4} {k : CellId} (hb : b.toNat = k.b.val) (hc : c.toNat = k.c.val) {start : RingIndex}
    (ds done : List Sample) {s : State} (h : RingHolds s k start done) :
    ∃ t, execAll (ds.flatMap fun d => [Instr.wr b c d, .adv]) s = .next t ∧ t.cfg = s.cfg ∧
      RingHolds t k start (done ++ ds) := by
  induction ds generalizing s done with
  | nil => exact ⟨s, rfl, rfl, by rwa [List.append_nil]⟩
  | cons d ds ih =>
    obtain ⟨t, hrun, hcfg, ht⟩ := ih (done ++ [d]) (h.afterWrAdv d)
    refine ⟨t, ?_, hcfg, by rwa [List.append_assoc] at ht⟩
    rw [List.flatMap_cons, List.cons_append, execAll, exec_wr_of_fields s d hb hc]
    exact hrun

/-- Settles O18, by induction on the samples: the ring holds the last 128, and the reduce sums them. -/
theorem averageIsTheMeanOfTheLast128Samples : Obligations.AverageIsTheMeanOfTheLast128Samples := by
  intro s b c k ds hb hc htick hlen
  obtain ⟨t, hrun, hcfg, hholds⟩ := execAll_wr_adv hb hc ds [] (ringHolds_nil s k)
  refine ⟨t.reduceAndRespond, by rw [execAll_append _ _ _ _ hrun]; rfl, ?_⟩
  rw [State.readAvg_reduceAndRespond_tick (by rw [hcfg, htick]), State.average_toNat_eq_ringTotal_div,
    hholds.ringTotal_eq hlen, List.nil_append]

end Sys2Proof.Machine
end

section
/-! Ticks from reset (40_buffer_write.md section 5; 70_reset_and_hazards.md section 3): what every tick keeps. -/

namespace Sys2Proof.Machine

/-- A block with the parameters `cfg` after ticks from reset that read `done`, oldest first. -/
structure TicksDone (cfg : Config) (done : List Samples) (s : State) : Prop where
  cfg_eq : s.cfg = cfg
  rings : ∀ ch, RingHolds s (routeOf cfg ch) 0#7 (done.map fun x => x.get ch)
  unwritten : ∀ i : RingIndex, done.length ≤ i.toNat → ∀ k, s.bufRead k i = cfg.sentinel
  slots_zero : cfg.policy = .onWrap → done.length < 128 → ∀ k, s.readAvg k = 0#32
  slots_fresh : cfg.granularity = .tick → done ≠ [] → s.cur = 0#7 → ∀ k, (s.readAvg k).toNat = s.ringTotal k / 128

theorem TicksDone.cur_eq {cfg : Config} {done : List Samples} {s : State} (h : TicksDone cfg done s) :
    s.cur = BitVec.ofNat 7 done.length := by
  simpa using (h.rings 0).cur_eq

theorem ticksDone_powerOn (cfg : Config) (xs : List Samples) :
    TicksDone cfg [] { State.powerOn cfg with samples := xs } where
  cfg_eq := rfl
  rings _ := ringHolds_nil _ _
  unwritten _ _ _ := rfl
  slots_zero _ _ k := State.readAvg_powerOn cfg k
  slots_fresh _ h := absurd rfl h

/-- One more tick: it writes each ring at the cursor and advances; under `OnWrap` it reduces only as the cursor wraps, and
as the cursor wraps it reduces under either policy. -/
theorem TicksDone.tick {cfg : Config} (hwf : cfg.wf) {done rest : List Samples} {x : Samples} {s : State}
    (h : TicksDone cfg done s) (hs : s.samples = x :: rest) :
    ∃ t, exec .tick s = .next t ∧ t.samples = rest ∧ TicksDone cfg (done ++ [x]) t := by
  obtain rfl := h.cfg_eq
  obtain ⟨hreading, hrest, -⟩ := State.consumeSamples_cons hs
  have hcur : s.sampleAndAdvance.finishTick.cur = s.cur + 1#7 := by simp
  have hcurNat : s.cur.toNat = done.length % 128 := by rw [h.cur_eq]; exact BitVec.toNat_ofNat ..
  refine ⟨_, exec_tick s, by simp [hrest], by simp, fun ch => ?rings, fun i hi k => ?unwritten, fun hwrap hlt k => ?zero,
    fun htick _ hzero k => ?fresh⟩
  case rings =>
    rw [List.map_append]
    refine (h.rings ch).append ?_ (fun i hi => ?_) hcur
    · rw [State.bufRead_finishTick, s.sampleAndAdvance_routed hwf, hreading]
    · rw [State.bufRead_finishTick, s.sampleAndAdvance_other _ i hi]
  case unwritten =>
    rw [List.length_append, List.length_singleton] at hi
    have hne : i ≠ s.cur := by
      rintro rfl
      omega
    rw [State.bufRead_finishTick, s.sampleAndAdvance_other k i hne, h.unwritten i (by omega)]
  case zero =>
    rw [List.length_append, List.length_singleton] at hlt
    have hnot : ¬(s.cfg.policy = .everyTick ∨ s.cur = 127#7) := by
      rintro (he | he)
      · rw [hwrap] at he
        cases he
      · rw [he, BitVec.toNat_ofNat] at hcurNat
        omega
    rw [State.finishTick_of_not_due hnot, State.readAvg_respond, State.readAvg_sampleAndAdvance,
      h.slots_zero hwrap (by omega)]
  case fresh =>
    have hdue : s.cfg.policy = .everyTick ∨ s.cur = 127#7 := by
      right
      rw [hcur] at hzero
      exact eq_sub_of_add_eq hzero
    obtain ⟨t, ht, -, hreduced, -⟩ := tickReducesByThePolicy s
    rw [exec_tick] at ht
    cases ht
    exact (hreduced hdue htick).1 k

/-- Ticks that read a list of readings, after others from reset. -/
theorem TicksDone.ticks {cfg : Config} (hwf : cfg.wf) (xs done : List Samples) {s : State} (h : TicksDone cfg done s)
    (hs : s.samples = xs) : ∃ t, execAll (List.replicate xs.length .tick) s = .next t ∧ TicksDone cfg (done ++ xs) t := by
  induction xs generalizing s done with
  | nil => exact ⟨s, rfl, by rwa [List.append_nil]⟩
  | cons x xs ih =>
    obtain ⟨u, hu, husamples, hudone⟩ := h.tick hwf hs
    obtain ⟨t, hrun, ht⟩ := ih (done ++ [x]) hudone husamples
    refine ⟨t, ?_, by rwa [List.append_assoc] at ht⟩
    rw [List.length_cons, List.replicate_succ, execAll, hu]
    exact hrun

theorem ticksDone_from_reset {cfg : Config} (hwf : cfg.wf) (xs : List Samples) :
    ∃ t, execAll (List.replicate xs.length .tick) { State.powerOn cfg with samples := xs } = .next t ∧
      TicksDone cfg xs t :=
  (ticksDone_powerOn cfg xs).ticks hwf xs [] rfl

/-- Settles O19: what every tick keeps, at the end of the ticks. -/
theorem ticksAfterResetFillTheRings : Obligations.TicksAfterResetFillTheRings := by
  intro cfg xs hwf
  obtain ⟨t, hrun, h⟩ := ticksDone_from_reset hwf xs
  refine ⟨t, hrun, by rw [h.cur_eq]; exact BitVec.toNat_ofNat .., fun j hj hrecent ch => ?_, h.unwritten, h.slots_zero⟩
  have hentry := (h.rings ch).entry j (by rwa [List.length_map]) (by rwa [List.length_map])
  rwa [BitVec.zero_add, List.getElem_map] at hentry

/-- Settles O20: the last tick wraps the cursor and so reduces, and each ring holds its channel's last 128 samples. -/
theorem fullCyclesAverageTheRoutedSamples : Obligations.FullCyclesAverageTheRoutedSamples := by
  intro cfg xs m hwf htick hlen
  obtain ⟨t, hrun, h⟩ := ticksDone_from_reset hwf xs
  have hcur : t.cur = 0#7 := by
    rw [h.cur_eq, hlen]
    apply BitVec.eq_of_toNat_eq
    simp only [BitVec.toNat_ofNat]
    omega
  have hne : xs ≠ [] := List.ne_nil_of_length_pos (by omega)
  refine ⟨t, hrun, hcur, fun ch => ?_⟩
  rw [h.slots_fresh htick hne hcur, (h.rings ch).ringTotal_eq (by rw [List.length_map]; omega), List.length_map, hlen,
    show 128 * (m + 1) - 128 = 128 * m by omega, ← List.map_drop, List.map_map]
  rfl

end Sys2Proof.Machine
end

section
/-! What one operation, one refused word or one slot store can do, said once; what a step of a block with the reset pin low
can do follows (20_memory.md section 3). -/

namespace Sys2Proof.Machine

/-- The effects of a word accepted on a port: an answer alone (also that to a refused word), or one of the writes of the
block. -/
inductive Effect (s : State) : Port → State → Prop where
  | answer (p : Port) (r : Response) : Effect s p (s.respond p r)
  | write (k : CellId) (d : Sample) : Effect s .w ((s.bufWrite k s.cur d).respond .w (okResponse 0#32))
  | advance : Effect s .w (s.advanceCur.respond .w (okResponse 0#32))
  | sample : Effect s .w (s.sampleAndAdvance.respond .w (okResponse 0#32))
  | sampleAndReduce : Effect s .w s.sampleAndAdvance.reduceAndRespond
  | reduce : Effect s .w s.reduceAndRespond
  | send (k : CellId) (f : Frame) (r : Response) : Effect s .r (((s.setSending k).emitTx f).respond .r r)

/-- The word on a cell has its effect there, or is turned away. -/
theorem State.onCell_effect {s : State} {p : Port} {f : CellId → State} (hf : ∀ k, Effect s p (f k)) (b c : BitVec 4) :
    Effect s p (s.onCell p b c f) := by
  rcases s.onCell_cases p b c f with ⟨k, -, h⟩ | h <;> rw [h]
  · exact hf k
  · exact .answer p errResponse

theorem exec_effect {i : Instr} {s t : State} (h : exec i s = .next t) : Effect s i.port t := by
  cases i <;> cases h
  case nop p => exact .answer p _
  case wr b c d => exact State.onCell_effect (fun k => .write k d) b c
  case adv => exact .advance
  case tick =>
    split
    · exact .sampleAndReduce
    · exact .sample
  case red => exact .reduce
  case rdavg b c => exact State.onCell_effect (fun _ => .answer .r _) b c
  case enc b c v => exact State.onCell_effect (fun _ => .answer .r _) b c
  case seq => exact .send _ _ _

/-- A word of port R changes the sequencer, the frames and its own answers alone. -/
theorem Effect.frame_r {s t : State} (h : Effect s .r t) : t = { s with seq := t.seq, txlog := t.txlog, rspR := t.rspR } := by
  cases h <;> rfl

/-- A word of port W changes neither these nor the words waiting, the choices and the parameters. -/
theorem Effect.frame_w {s t : State} (h : Effect s .w t) :
    t = { s with buf := t.buf, cur := t.cur, avg := t.avg, publishing := t.publishing, rspW := t.rspW,
                 samples := t.samples, draws := t.draws } := by
  cases h
  case sample => rw [s.sampleAndAdvance_frame]; rfl
  case sampleAndReduce => rw [State.reduceAndRespond_frame, s.sampleAndAdvance_frame]
  case reduce => rw [State.reduceAndRespond_frame]
  all_goals rfl

/-- Settles O38: the frames of the effects of either port. -/
theorem eachSideKeepsTheOtherSidesState : Obligations.EachSideKeepsTheOtherSidesState := by
  intro i s t h
  have he := exec_effect h
  refine ⟨fun hport => ?_, fun hport => (hport ▸ he).frame_w⟩
  have hframe := (hport ▸ he).frame_r
  refine ⟨fun k i => ?_, fun k => ?_, hframe⟩ <;> (rw [hframe]; rfl)

/-- The value of a step's store is one that was owed; the last store answers. -/
theorem State.storeSlot_of_possible {s : State} {k : CellId} (h : s.possible (.store k) = true) :
    ∃ v, (k, v) ∈ s.publishing ∧ (s.storeSlot k).avg = (s.writeAvg k v).avg ∧
      (s.storeSlot k).publishing = s.publishing.filter (fun e => decide (e.1 ≠ k)) ∧
      (((s.storeSlot k).publishing = [] ∧ (s.storeSlot k).rspW = s.rspW ++ [okResponse 0#32]) ∨
        ((s.storeSlot k).publishing ≠ [] ∧ (s.storeSlot k).rspW = s.rspW)) := by
  unfold State.storeSlot
  cases hfind : s.publishing.find? fun e => decide (e.1 = k) with
  | none =>
    obtain ⟨e, hmem, hkey⟩ := List.any_eq_true.mp h
    exact absurd hkey (List.find?_eq_none.mp hfind e hmem)
  | some e =>
    obtain ⟨k', v⟩ := e
    obtain rfl : k' = k := by simpa using List.find?_some hfind
    refine ⟨v, List.mem_of_find?_eq_some hfind, ?_⟩
    dsimp only
    split
    case isTrue hlast => exact ⟨rfl, rfl, .inl ⟨List.isEmpty_iff.mp hlast, rfl⟩⟩
    case isFalse hmore => exact ⟨rfl, rfl, .inr ⟨fun he => hmore (List.isEmpty_iff.mpr he), rfl⟩⟩

/-- What a step with the reset pin low does: nothing where no point can come next, one word accepted on a ready port, or one
store of those owed. -/
theorem step_effect {s t : State} (hrst : s.rst = false) (h : step s = .next t) :
    (s.candidates = [] ∧ t = s) ∨
    (∃ p w ws cs n, s.ready p = true ∧ s.portIn p = w :: ws ∧
      Effect ({ s with turns := cs, draws := n }.setPortIn p ws) p t) ∨
    (∃ k cs n, s.possible (.store k) = true ∧ t = { s with turns := cs, draws := n }.storeSlot k) := by
  rcases step_cases h with ⟨hrst', -⟩ | ⟨-, hnone, ht⟩ | ⟨-, p, w, ws, u, hu, hready, hin, hdo⟩ | ⟨-, k, u, hu, hp, ht⟩
  · rw [hrst] at hrst'
    cases hrst'
  · exact .inl ⟨hnone, ht⟩
  · refine .inr (.inl ⟨p, w, ws, u.turns, u.draws, hready, hin, ?_⟩)
    rw [← hu]
    rcases hdo with ⟨i, hd, hexec⟩ | ⟨e, -, rfl⟩
    · obtain ⟨-, rfl, -⟩ := encode_of_decode hd
      exact exec_effect hexec
    · exact .answer p errResponse
  · exact .inr (.inr ⟨k, u.turns, u.draws, hp, by rw [← hu, ht]⟩)

theorem State.ready_w_iff {s : State} : s.ready .w = true ↔ s.rst = false ∧ s.publishing = [] := by
  simp [State.ready]

/-- Settles O23: with stores owed port W is not ready, and neither a word of port R nor a store changes what the statement
names. -/
theorem portWWaitsForTheReduce : Obligations.PortWWaitsForTheReduce := by
  intro s t hrst howed h
  rcases step_effect hrst h with ⟨-, rfl⟩ | ⟨p, w, ws, cs, n, hready, -, he⟩ | ⟨k, cs, n, -, rfl⟩
  · exact ⟨rfl, rfl, rfl, rfl⟩
  · cases p with
    | w => exact absurd (State.ready_w_iff.mp hready).2 howed
    | r => rw [he.frame_r]; exact ⟨rfl, rfl, rfl, rfl⟩
  · simp

end Sys2Proof.Machine
end

section
/-! What a step may change: slots whole, entries at the cursor, the cursor by one, one answer and one frame at most
(20_memory.md sections 2 and 3; 10_state.md sections 2 and 4; 30_encoding.md section 1). -/

namespace Sys2Proof.Machine

/-- A reduce leaves a slot, or gives it its ring's average. -/
theorem State.readAvg_reduceAndRespond (s : State) (k : CellId) :
    s.reduceAndRespond.readAvg k = s.readAvg k ∨ s.reduceAndRespond.readAvg k = s.reduceAndRespond.average k := by
  cases hg : s.cfg.granularity with
  | tick =>
    rw [State.readAvg_reduceAndRespond_tick hg, State.average_congr k (s.bufRead_reduceAndRespond k)]
    exact .inr rfl
  | slot => exact .inl (State.readAvg_reduceAndRespond_slot hg k)

theorem Effect.slot {s t : State} {p : Port} (h : Effect s p t) (k : CellId) :
    t.readAvg k = s.readAvg k ∨ t.readAvg k = t.average k := by
  cases h
  case sampleAndReduce => simpa using s.sampleAndAdvance.readAvg_reduceAndRespond k
  case reduce => exact s.readAvg_reduceAndRespond k
  case send => exact .inl rfl
  all_goals exact .inl (by simp)

/-- Settles O40: a word accepted leaves a slot or gives it its ring's average, and a store gives the owed value. -/
theorem slotsAreNeverTorn : Obligations.SlotsAreNeverTorn := by
  intro s t hrst h k
  rcases step_effect hrst h with ⟨-, rfl⟩ | ⟨p, w, ws, cs, n, -, -, he⟩ | ⟨k', cs, n, hp, rfl⟩
  · exact .inl rfl
  · exact (he.slot k).imp (fun hsame => hsame.trans (State.readAvg_congr (State.setPortIn_avg _ p ws) k)) .inr
  · obtain ⟨v, hv, havg, -, -⟩ :=
      State.storeSlot_of_possible (s := { s with turns := cs, draws := n }) (k := k') hp
    rw [State.readAvg_congr havg, State.readAvg_writeAvg]
    by_cases hk : k = k'
    · rw [if_pos hk, hk]
      exact .inr (.inl hv)
    · rw [if_neg hk]
      exact .inl rfl

/-- What an effect keeps, whichever port it is of: the parameters, the entries away from the cursor, the cursor but for one
advance, a sequencer that is not `Idle`, and the frames but for one more. -/
theorem Effect.keeps {s t : State} {p : Port} (h : Effect s p t) :
    t.cfg = s.cfg ∧ (∀ k i, i ≠ s.cur → t.bufRead k i = s.bufRead k i) ∧ (t.cur = s.cur ∨ t.cur = s.cur + 1#7) ∧
      (s.seq ≠ .idle → t.seq ≠ .idle) ∧ (t.txlog = s.txlog ∨ ∃ f, t.txlog = s.txlog ++ [f]) := by
  cases h
  case answer => simp
  case write => simp +contextual [State.bufRead_bufWrite]
  case advance => simp
  case sample | sampleAndReduce => simp +contextual [State.sampleAndAdvance_other]
  case reduce => simp
  case send k f r => exact ⟨rfl, fun _ _ _ => rfl, .inl rfl, fun _ => SeqState.noConfusion, .inr ⟨f, rfl⟩⟩

/-- Settles O41: the reset event keeps the parameters, and the effects of words and stores keep the rest. -/
theorem stepsChangeStateOnlyAsAllowed : Obligations.StepsChangeStateOnlyAsAllowed := by
  intro s t h
  cases hrst : s.rst with
  | true =>
    rw [step, if_pos hrst] at h
    cases h
    exact ⟨rfl, fun h => nomatch h⟩
  | false =>
    rcases step_effect hrst h with ⟨-, rfl⟩ | ⟨p, w, ws, cs, n, -, -, he⟩ | ⟨k, cs, n, -, rfl⟩
    · exact ⟨rfl, fun _ => ⟨fun _ _ _ => rfl, .inl rfl, id, .inl rfl⟩⟩
    · obtain ⟨hcfg, hbuf, hcur, hseq, hlog⟩ := he.keeps
      simp only [State.setPortIn_cur, State.setPortIn_seq, State.setPortIn_txlog, State.setPortIn_cfg]
        at hcfg hbuf hcur hseq hlog
      refine ⟨hcfg, fun _ => ⟨fun k i hi => (hbuf k i hi).trans ?_, hcur.imp id fun h => ?_, hseq, hlog⟩⟩
      · exact State.bufRead_congr (State.setPortIn_buf _ p ws) (State.setPortIn_cfg _ p ws) k i
      · rw [h, BitVec.toNat_add]
        rfl
    · exact ⟨by simp, fun _ => ⟨fun k i _ => State.bufRead_storeSlot _ _ k i, .inl (by simp), by simp, .inl (by simp)⟩⟩

/-- A word of port R is answered once, on port R. -/
theorem Effect.answers_r {s t : State} (h : Effect s .r t) : ∃ r, t.rspR = s.rspR ++ [r] := by
  cases h
  case answer r => exact ⟨r, rfl⟩
  case send r => exact ⟨r, rfl⟩

theorem State.reduceResults_ne_nil (s : State) : s.reduceResults ≠ [] := List.cons_ne_nil _ _

/-- A reduce answers at once, or owes its stores and the answer. -/
theorem State.reduceAndRespond_answers {s : State} (h : s.publishing = []) :
    (∃ r, s.reduceAndRespond.rspW = s.rspW ++ [r] ∧ s.reduceAndRespond.publishing = []) ∨
      (s.reduceAndRespond.rspW = s.rspW ∧ s.reduceAndRespond.publishing ≠ []) := by
  cases hg : s.cfg.granularity with
  | tick => exact .inl ⟨_, State.rspW_reduceAndRespond_tick hg, (State.publishing_reduceAndRespond_tick hg).trans h⟩
  | slot =>
    exact .inr ⟨State.rspW_reduceAndRespond_slot hg, State.publishing_reduceAndRespond_slot hg ▸ s.reduceResults_ne_nil⟩

/-- A word of port W is answered once, on port W, unless it leaves a reduce part way. -/
theorem Effect.answers_w {s t : State} (h : Effect s .w t) (howed : s.publishing = []) :
    (∃ r, t.rspW = s.rspW ++ [r] ∧ t.publishing = []) ∨ (t.rspW = s.rspW ∧ t.publishing ≠ []) := by
  cases h
  case answer r => exact .inl ⟨r, rfl, howed⟩
  case sample => exact .inl ⟨okResponse 0#32, by simp, by simpa using howed⟩
  case sampleAndReduce => simpa using State.reduceAndRespond_answers (s := s.sampleAndAdvance) (by simpa using howed)
  case reduce => exact State.reduceAndRespond_answers howed
  all_goals exact .inl ⟨_, rfl, howed⟩

/-- Settles O37: each port's answers, and the count of words, answers and a reduce part way on port W. -/
theorem oneAnswerPerAcceptedWord : Obligations.OneAnswerPerAcceptedWord := by
  intro s t hrst h
  rcases step_effect hrst h with ⟨-, rfl⟩ | ⟨p, w, ws, cs, n, hready, hin, he⟩ | ⟨k, cs, n, hp, rfl⟩
  case inl => exact ⟨.inl ⟨rfl, rfl⟩, .inl rfl, .inl rfl, rfl⟩
  case inr.inl =>
    cases p with
    | r =>
      obtain ⟨r, hr⟩ := he.answers_r
      rw [he.frame_r]
      exact ⟨.inr ⟨w, r, hin, hr⟩, .inl rfl, .inl rfl, rfl⟩
    | w =>
      have howed := (State.ready_w_iff.mp hready).2
      have hin : s.wIn = w :: ws := hin
      have hwIn : t.wIn = ws := by rw [he.frame_w]; rfl
      refine ⟨.inl (by rw [he.frame_w]; exact ⟨rfl, rfl⟩), .inr ⟨w, by rw [hwIn, hin]⟩, ?_⟩
      rcases he.answers_w howed with ⟨r, hr, hdone⟩ | ⟨hr, hpart⟩
      · have hr : t.rspW = s.rspW ++ [r] := hr
        refine ⟨.inr ⟨r, hr⟩, ?_⟩
        simp only [hwIn, hin, hr, hdone, howed, List.length_cons, List.length_append, List.length_nil, if_true]
        omega
      · have hr : t.rspW = s.rspW := hr
        refine ⟨.inl hr, ?_⟩
        simp only [hwIn, hin, hr, hpart, howed, List.length_cons, if_true, if_false]
        omega
  case inr.inr =>
    have howed : s.publishing ≠ [] := by
      rintro hnil
      simp [State.possible, hnil] at hp
    obtain ⟨v, -, -, -, hlast⟩ := State.storeSlot_of_possible (s := { s with turns := cs, draws := n }) (k := k) hp
    refine ⟨.inl (by simp), .inl (by simp), ?_⟩
    rcases hlast with ⟨hdone, hr⟩ | ⟨hpart, hr⟩
    · refine ⟨.inr ⟨_, hr⟩, ?_⟩
      simp only [State.storeSlot_wIn, hr, hdone, howed, List.length_append, List.length_singleton, if_true, if_false]
      omega
    · refine ⟨.inl hr, ?_⟩
      simp only [State.storeSlot_wIn, hr, hpart, howed, if_false]

end Sys2Proof.Machine
end

section
/-! The invariant (10_state.md sections 2 and 3): what it speaks of, and that every effect keeps it. -/

namespace Sys2Proof.Machine

/-- The invariant speaks of the parameters, `BUF`, `AVG` and the owed stores alone. -/
theorem State.Inv.congr {s t : State} (h : s.Inv) (hcfg : t.cfg = s.cfg) (hbuf : t.buf = s.buf) (havg : t.avg = s.avg)
    (howed : t.publishing = s.publishing) : t.Inv where
  legal_cfg := hcfg ▸ h.legal_cfg
  canonical := by rw [hcfg, hbuf]; exact h.canonical
  slots_fit k := by rw [State.readAvg_congr havg]; exact h.slots_fit k
  owed_fit := howed ▸ h.owed_fit
  owed_once := howed ▸ h.owed_once
  owed_slot := by rw [hcfg, howed]; exact h.owed_slot

theorem State.Inv.respond {s : State} (h : s.Inv) (p : Port) (r : Response) : (s.respond p r).Inv :=
  h.congr (by simp) (by simp) (by simp) (by simp)

theorem State.Inv.bufWrite {s : State} (h : s.Inv) (k : CellId) (i : RingIndex) (v : Sample) : (s.bufWrite k i v).Inv :=
  { h with canonical := Memory.write_keeps_wf (entryAddr_lt k i) h.canonical }

theorem State.Inv.routeSamples {s : State} (h : s.Inv) (x : Samples) : (s.routeSamples x).Inv :=
  List.foldlRecOn channels _ h fun _ ht _ _ => ht.bufWrite _ _ _

theorem State.Inv.sampleAndAdvance {s : State} (h : s.Inv) : s.sampleAndAdvance.Inv := by
  have hconsumed : s.consumeSamples.Inv := h.congr (by simp) (by simp) (by simp) (by simp)
  exact (hconsumed.routeSamples s.sampleReading).congr rfl rfl rfl rfl

/-- A reduce gives averages, which fit 16 bits, to the slots or to the list of owed stores, one for each cell. -/
theorem State.Inv.reduceAndRespond {s : State} (h : s.Inv) : s.reduceAndRespond.Inv := by
  cases hg : s.cfg.granularity with
  | tick =>
    have howed := State.publishing_reduceAndRespond_tick hg
    exact {
      legal_cfg := by rw [State.reduceAndRespond_cfg]; exact h.legal_cfg
      canonical := by rw [State.reduceAndRespond_cfg, State.reduceAndRespond_buf]; exact h.canonical
      slots_fit := fun k => by rw [State.readAvg_reduceAndRespond_tick hg]; exact s.average_lt k
      owed_fit := howed ▸ h.owed_fit
      owed_once := howed ▸ h.owed_once
      owed_slot := by rw [State.reduceAndRespond_cfg, howed]; exact h.owed_slot }
  | slot =>
    rw [s.reduceAndRespond_slot hg]
    exact { h with
      owed_fit := List.forall_mem_map.mpr fun k _ => s.average_lt k
      owed_once := s.reduceResults_keys ▸ allCells_nodup
      owed_slot := fun _ => hg }

/-- A store puts an owed value, which fits 16 bits, in a slot, and owes fewer stores. -/
theorem State.Inv.storeSlot {s : State} (h : s.Inv) {k : CellId} (hp : s.possible (.store k) = true) :
    (s.storeSlot k).Inv := by
  obtain ⟨v, hv, havg, howed, -⟩ := State.storeSlot_of_possible hp
  have hsub : (s.storeSlot k).publishing.Sublist s.publishing := howed ▸ List.filter_sublist
  exact {
    legal_cfg := by rw [State.storeSlot_cfg]; exact h.legal_cfg
    canonical := by rw [State.storeSlot_cfg, State.storeSlot_buf]; exact h.canonical
    slots_fit := fun k' => by
      rw [State.readAvg_congr havg, State.readAvg_writeAvg]
      split
      · exact h.owed_fit _ hv
      · exact h.slots_fit k'
    owed_fit := fun e he => h.owed_fit e (hsub.subset he)
    owed_once := (hsub.map _).nodup h.owed_once
    owed_slot := fun hne => by
      rw [State.storeSlot_cfg]
      exact h.owed_slot (List.ne_nil_of_mem hv) }

theorem Effect.keeps_inv {s t : State} {p : Port} (he : Effect s p t) (h : s.Inv) : t.Inv := by
  cases he
  case answer r => exact h.respond p r
  case write k d => exact (h.bufWrite k s.cur d).respond .w _
  case advance => exact (h.congr (t := s.advanceCur) rfl rfl rfl rfl).respond .w _
  case sample => exact h.sampleAndAdvance.respond .w _
  case sampleAndReduce => exact h.sampleAndAdvance.reduceAndRespond
  case reduce => exact h.reduceAndRespond
  case send k f r => exact (h.congr (t := (s.setSending k).emitTx f) rfl rfl rfl rfl).respond .r r

/-- Settles O43: the reset event gives a reset state, and every effect and every store keep the invariant. -/
theorem everyStepKeepsTheInvariant : Obligations.EveryStepKeepsTheInvariant := by
  intro s t h hstep
  cases hrst : s.rst with
  | true =>
    rw [step, if_pos hrst] at hstep
    cases hstep
    exact (inv_powerOn h.legal_cfg).congr rfl rfl rfl rfl
  | false =>
    rcases step_effect hrst hstep with ⟨-, rfl⟩ | ⟨p, w, ws, cs, n, -, -, he⟩ | ⟨k, cs, n, hp, rfl⟩
    · exact h
    · exact he.keeps_inv (h.congr (by simp) (by simp) (by simp) (by simp))
    · exact State.Inv.storeSlot (s := { s with turns := cs, draws := n }) (h.congr rfl rfl rfl rfl) hp

end Sys2Proof.Machine
end

section
/-! The next point of the total order and the step that takes it (20_memory.md section 3; 30_encoding.md sections 1, 4
and 5). -/

namespace Sys2Proof.Machine

theorem State.possible_port {s : State} {p : Port} (hrst : s.rst = false) (howed : p = .w → s.publishing = [])
    (hin : s.portIn p ≠ []) : s.possible (.port p) = true := by
  cases p with
  | w => simpa [State.possible, State.ready, hrst, howed rfl] using hin
  | r => simpa [State.possible, State.ready, hrst] using hin

theorem State.possible_store {s : State} {k : CellId} {v : Word} (h : (k, v) ∈ s.publishing) :
    s.possible (.store k) = true :=
  List.any_eq_true.mpr ⟨(k, v), h, decide_eq_true rfl⟩

/-- The step takes the point that the environment named, where it can come next. -/
theorem step_scheduled {s : State} {turn : Turn} {cs : List Choice} (hrst : s.rst = false) (ht : s.turns = .now turn :: cs)
    (hp : s.possible turn = true) : step s = takeTurn { s with turns := cs } turn :=
  step_turn hrst (State.nextTurn_scheduled ht hp)

/-- The step accepts the word of the port that the environment named. -/
theorem step_scheduled_port {s : State} {p : Port} {cs : List Choice} (hrst : s.rst = false)
    (ht : s.turns = .now (.port p) :: cs) (hin : s.portIn p ≠ []) (howed : p = .w → s.publishing = []) :
    step s = accept { s with turns := cs } p :=
  step_scheduled hrst ht (State.possible_port hrst howed hin)

theorem State.portIn_congr {s t : State} (hw : t.wIn = s.wIn) (hr : t.rIn = s.rIn) (p : Port) : t.portIn p = s.portIn p := by
  cases p <;> assumption

/-- Where one port alone presents a word and nothing is owed, its word is the one point that can come next. -/
theorem State.candidates_of_one_port {s : State} {p : Port} (hrst : s.rst = false) (hin : s.portIn p ≠ [])
    (hother : ∀ q, q ≠ p → s.portIn q = []) (howed : s.publishing = []) : s.candidates = [.port p] := by
  have hp := State.possible_port hrst (fun _ => howed) hin
  have hq (q : Port) (h : q ≠ p) : s.possible (.port q) = false := by simp [State.possible, hother q h]
  cases p with
  | w => simp [State.candidates, hp, hq .r, howed]
  | r => simp [State.candidates, hp, hq .w, howed]

theorem step_only_port {s : State} {p : Port} (hrst : s.rst = false) (ht : s.turns = []) (hin : s.portIn p ≠ [])
    (hother : ∀ q, q ≠ p → s.portIn q = []) (howed : s.publishing = []) : step s = accept s p := by
  refine step_turn (t := .port p) (u := s) hrst ?_
  have hsame : { s with turns := [] } = s := by rw [← ht]
  rw [State.nextTurn, ht, State.turnBy, State.candidates_of_one_port hrst hin hother howed, hsame]
  rfl

/-- Settles O33: the named port, the only port, and the port just presented on accept a word that decodes. -/
theorem stepRunsTheDecodedOperation : Obligations.StepRunsTheDecodedOperation := by
  intro s p w ws i hd
  refine ⟨fun cs hrst ht hin howed => ?named, fun hrst ht hin hother howed => ?only, ?presented⟩
  case named =>
    rw [step_scheduled_port hrst ht (hin ▸ List.cons_ne_nil w ws) howed]
    exact accept_decoded (State.portIn_congr rfl rfl p |>.trans hin) hd
  case only =>
    rw [step_only_port hrst ht (hin ▸ List.cons_ne_nil w ws) hother howed]
    exact accept_decoded hin hd
  case presented =>
    have hin : (s.presentNext p w).portIn p = w :: s.portIn p := by cases p <;> rfl
    have howed : p = .w → (s.presentNext p w).publishing = [] := fun hp => if_pos hp
    rw [step_scheduled_port rfl rfl (hin ▸ List.cons_ne_nil _ _) howed]
    exact (accept_decoded (s := { s.presentNext p w with turns := s.turns })
      ((State.portIn_congr rfl rfl p).trans hin) hd).trans (by cases p <;> rfl)

/-- Settles O34: the named port turns away a word that decodes to nothing. -/
theorem undecodableWordIsAnsweredErr : Obligations.UndecodableWordIsAnsweredErr := by
  intro s p w ws cs e hd hrst ht hin howed
  refine ⟨({ s with turns := cs }.setPortIn p ws).turnAway p, ?_, ?_⟩
  · rw [step_scheduled_port hrst ht (hin ▸ List.cons_ne_nil w ws) howed]
    exact accept_rejected (State.portIn_congr rfl rfl p |>.trans hin) hd
  · cases p with
    | w => exact ⟨answered_w rfl rfl, rfl, rfl, ⟨fun _ _ => rfl, rfl, fun _ => rfl, rfl, rfl, rfl⟩, rfl,
        fun | .w, h => absurd rfl h | .r, _ => rfl, rfl⟩
    | r => exact ⟨answered_r rfl rfl, rfl, rfl, ⟨fun _ _ => rfl, rfl, fun _ => rfl, rfl, rfl, rfl⟩, rfl,
        fun | .r, h => absurd rfl h | .w, _ => rfl, rfl⟩

/-- Settles O36: with nothing owed either port is ready, so the named one comes. -/
theorem eitherPortMayComeFirst : Obligations.EitherPortMayComeFirst := by
  intro s cs hrst howed hw hr p
  refine step_scheduled_port hrst rfl ?_ fun _ => howed
  cases p with
  | w => exact hw
  | r => exact hr

theorem takeTurn_completes (s : State) (turn : Turn) : ∃ t, takeTurn s turn = .next t := by
  cases turn with
  | store k => exact ⟨_, rfl⟩
  | port p =>
    cases hin : s.portIn p with
    | nil => exact ⟨s, by rw [takeTurn, accept, hin]⟩
    | cons w ws =>
      cases hd : decode p w with
      | ok i =>
        obtain ⟨t, ht⟩ := exec_completes i (s.setPortIn p ws)
        exact ⟨t, (accept_decoded hin hd).trans ht⟩
      | error e => exact ⟨_, accept_rejected hin hd⟩

/-- With the reset pin low a step takes a point that can come next, or none can and nothing changes. -/
theorem step_takes_possible {s : State} (hrst : s.rst = false) :
    (∃ turn, ∃ u : State, s.possible turn = true ∧ u = { s with turns := u.turns, draws := u.draws } ∧
      step s = takeTurn u turn) ∨ ((∀ turn, s.possible turn = false) ∧ step s = .next s) := by
  cases hn : s.nextTurn with
  | some e =>
    obtain ⟨hp, hu⟩ := State.nextTurn_some hn
    exact .inl ⟨e.1, e.2, hp, hu, step_turn hrst hn⟩
  | none =>
    refine .inr ⟨fun turn => Bool.eq_false_iff.mpr fun hp => ?_, by simp [step, hrst, hn]⟩
    have hmem := (s.mem_candidates turn).mpr hp
    rw [State.nextTurn_none hn] at hmem
    cases hmem

/-- Settles O35: a point that can come next is taken where there is one, and every point completes. -/
theorem stepAlwaysTakesAPossiblePoint : Obligations.StepAlwaysTakesAPossiblePoint := by
  intro s
  obtain hrst | hrst := Bool.eq_false_or_eq_true s.rst
  · refine ⟨⟨_, if_pos hrst⟩, ?_⟩
    simp [hrst]
  · rcases step_takes_possible hrst with ⟨turn, u, hp, hu, hstep⟩ | ⟨hnone, hstep⟩
    · obtain ⟨t, ht⟩ := takeTurn_completes u turn
      exact ⟨⟨t, hstep.trans ht⟩, fun _ _ => ⟨turn, u, hp, hu, hstep⟩, fun _ h => by simp [h] at hp⟩
    · exact ⟨⟨s, hstep⟩, fun _ ⟨turn, hp⟩ => by simp [hnone] at hp, fun _ _ => hstep⟩

theorem State.candidates_ne_nil {s : State} (h : s.publishing ≠ []) : s.candidates ≠ [] := by
  simp [State.candidates, h]

/-- The step accepts the word of the next line, where nothing is owed. -/
theorem step_line {s : State} {p : Port} {cs : List Choice} (hrst : s.rst = false) (ht : s.turns = .line p :: cs)
    (hin : s.portIn p ≠ []) (howed : s.publishing = []) : step s = accept { s with turns := cs } p := by
  have hp := State.possible_port hrst (fun _ => howed) hin
  exact step_turn hrst ((State.nextTurn_line ht hin).trans (State.lineTurn_ready hp howed))

/-- Settles O44: the turn of a line is the line or a store, and with stores owed port W is not ready. -/
theorem linesKeepTheirOrder : Obligations.LinesKeepTheirOrder := by
  intro s p cs hrst ht hin
  refine ⟨step_line hrst ht hin, fun howed => ?_⟩
  have hnext := State.nextTurn_line ht hin
  cases hl : s.lineTurn p cs with
  | none => exact absurd (State.lineTurn_none hl (by simpa using hin)) (State.candidates_ne_nil howed)
  | some e =>
    obtain ⟨turn, u⟩ := e
    have hstep := step_turn hrst (hnext.trans hl)
    obtain ⟨hp, ⟨rfl, hu⟩ | ⟨k, rfl, hu⟩⟩ := State.lineTurn_some hl
    · cases p with
      | w => simp [State.possible, State.ready, howed] at hp
      | r => exact ⟨u, by rw [hu], .inl ⟨rfl, by rw [hu], hstep⟩⟩
    · obtain ⟨e, he, hk⟩ := List.any_eq_true.mp hp
      obtain rfl : e.1 = k := of_decide_eq_true hk
      exact ⟨u, by rw [hu], .inr ⟨e, he, by rw [hu], hstep⟩⟩

end Sys2Proof.Machine
end

section
/-! The stores of a reduce under `Slot` (20_memory.md section 3). -/

namespace Sys2Proof.Machine

/-- Settles O22: the step is the named store, whose law says what the slots, the list of owed stores and port W show. -/
theorem scheduledStoreStoresOneSlotWhole : Obligations.ScheduledStoreStoresOneSlotWhole := by
  intro s k v cs hrst ht hnodup hmem
  obtain ⟨hslot, hother, howed, hlast, hmore⟩ := State.storeSlot_reads { s with turns := cs } k v hmem hnodup
  exact ⟨_, step_scheduled hrst ht (State.possible_store hmem), hslot, hother, howed,
    fun h => answered_w (hlast h) (State.storeSlot_rspR _ k), hmore, State.bufRead_storeSlot _ k, State.storeSlot_frame _ k⟩

/-- Slot stores change `AVG`, the owed stores and the responses of port W alone. -/
theorem State.foldl_storeSlot_frame (s : State) (order : List CellId) :
    order.foldl State.storeSlot s = { s with
      avg := (order.foldl State.storeSlot s).avg
      publishing := (order.foldl State.storeSlot s).publishing
      rspW := (order.foldl State.storeSlot s).rspW } := by
  induction order generalizing s with
  | nil => rfl
  | cons k order ih => rw [List.foldl_cons, ih, s.storeSlot_frame]

/-- The keys of the stores still owed after the first of an order of all of them. -/
theorem State.storeSlot_keys {s : State} {k : CellId} {v : Word} {order : List CellId}
    (hnodup : (s.publishing.map fun e => e.1).Nodup) (horder : (k :: order).Perm (s.publishing.map fun e => e.1))
    (hmem : (k, v) ∈ s.publishing) :
    ((s.storeSlot k).publishing.map fun e => e.1).Nodup ∧
      order.Perm ((s.storeSlot k).publishing.map fun e => e.1) := by
  obtain ⟨-, -, howed, -, -⟩ := s.storeSlot_reads k v hmem hnodup
  have hfresh : k ∉ order := (List.nodup_cons.mp (horder.nodup_iff.mpr hnodup)).1
  have hrest : (k :: order).filter (fun c => decide (c ≠ k)) = order := by
    rw [List.filter_cons_of_neg (by simp), List.filter_eq_self]
    exact fun c hc => decide_eq_true fun he => hfresh (he ▸ hc)
  have hperm := horder.filter fun c => decide (c ≠ k)
  rw [hrest, List.filter_map, Function.comp_def, ← howed] at hperm
  exact ⟨howed ▸ (List.filter_sublist.map _).nodup hnodup, hperm⟩

/-- All the stores owed, each once, in any order: every owed slot holds its value, the others are as before. -/
theorem State.foldl_storeSlot_reads {s : State} {order : List CellId} (hnodup : (s.publishing.map fun e => e.1).Nodup)
    (horder : order.Perm (s.publishing.map fun e => e.1)) :
    (∀ k v, (k, v) ∈ s.publishing → (order.foldl State.storeSlot s).readAvg k = v) ∧
    (∀ k, k ∉ order → (order.foldl State.storeSlot s).readAvg k = s.readAvg k) ∧
    (order.foldl State.storeSlot s).publishing = [] := by
  induction order generalizing s with
  | nil =>
    have hnone : s.publishing = [] := List.map_eq_nil_iff.mp horder.symm.eq_nil
    exact ⟨fun k v hv => by simp [hnone] at hv, fun _ _ => rfl, hnone⟩
  | cons k order ih =>
    obtain ⟨⟨k, v⟩, hmem, rfl⟩ := List.mem_map.mp (horder.subset List.mem_cons_self)
    obtain ⟨hslot, hother, howed, -, -⟩ := s.storeSlot_reads k v hmem hnodup
    obtain ⟨hnodup', horder'⟩ := State.storeSlot_keys hnodup horder hmem
    obtain ⟨hstored, hkept, hnone⟩ := ih hnodup' horder'
    refine ⟨fun c w hw => ?_, fun c hc => ?_, hnone⟩
    · by_cases hc : c = k
      · have hw : w = v := congrArg Prod.snd (List.inj_on_of_nodup_map hnodup hw hmem hc)
        have hfresh : k ∉ order := (List.nodup_cons.mp (horder.nodup_iff.mpr hnodup)).1
        rw [List.foldl_cons, hc, hkept k hfresh, hslot, hw]
      · exact hstored c w (howed ▸ List.mem_filter.mpr ⟨hw, decide_eq_true hc⟩)
    · rw [List.mem_cons, not_or] at hc
      rw [List.foldl_cons, hkept c hc.2, hother c hc.1]

/-- Of all the stores owed, in any order, the last one alone answers. -/
theorem State.foldl_storeSlot_answers {s : State} {order : List CellId} (hnodup : (s.publishing.map fun e => e.1).Nodup)
    (horder : order.Perm (s.publishing.map fun e => e.1)) (hne : order ≠ []) :
    (order.foldl State.storeSlot s).rspW = s.rspW ++ [okResponse 0#32] := by
  induction order generalizing s with
  | nil => exact absurd rfl hne
  | cons k order ih =>
    obtain ⟨⟨k, v⟩, hmem, rfl⟩ := List.mem_map.mp (horder.subset List.mem_cons_self)
    obtain ⟨-, -, -, hlast, hmore⟩ := s.storeSlot_reads k v hmem hnodup
    obtain ⟨hnodup', horder'⟩ := State.storeSlot_keys hnodup horder hmem
    rw [List.foldl_cons]
    by_cases hnil : order = []
    · subst hnil
      exact hlast (List.map_eq_nil_iff.mp horder'.symm.eq_nil)
    · have howing : (s.storeSlot k).publishing ≠ [] := fun h => hnil (by simpa [h] using horder')
      rw [ih hnodup' horder' hnil, hmore howing]

/-- Settles O21: the stores give every slot its average, which is what the reduce under `Tick` gives it. -/
theorem slotReduceEndsAsTickReduce : Obligations.SlotReduceEndsAsTickReduce := by
  intro s order hslot horder
  have hne : order ≠ [] := fun h => absurd (h ▸ horder).length_eq (by decide)
  have hnodup := s.reduceResults_keys ▸ allCells_nodup
  have hkeys : order.Perm (s.reduceResults.map fun e => e.1) := s.reduceResults_keys ▸ horder
  obtain ⟨hstored, -, hdone⟩ := State.foldl_storeSlot_reads (s := { s with publishing := s.reduceResults }) hnodup hkeys
  have hrsp := State.foldl_storeSlot_answers (s := { s with publishing := s.reduceResults }) hnodup hkeys hne
  have havg : (order.foldl State.storeSlot { s with publishing := s.reduceResults }).avg =
      { s with cfg := { s.cfg with granularity := .tick } : State }.reduceAndRespond.avg := by
    refine State.avg_ext fun k => ?_
    rw [hstored k (s.average k) (List.mem_map.mpr ⟨k, mem_allCells k, rfl⟩), State.readAvg_reduceAndRespond_tick rfl]
    rfl
  have hframe := State.foldl_storeSlot_frame { s with publishing := s.reduceResults } order
  refine ⟨{ s with publishing := s.reduceResults }, _, congrArg Host.Outcome.next (s.reduceAndRespond_slot hslot), rfl, havg,
    answered_w hrsp ?_, ?_⟩
  · rw [hframe]
  · rw [havg, hdone] at hframe
    exact hframe

end Sys2Proof.Machine
end

section
/-! What each side sees (60_exceptions.md section 3; D1): an operation commutes with replacing what its side does not see. -/

namespace Sys2Proof.Machine

/-- The state `s` with what the write side does not see taken from `o`: the sequencer, the frames, port R's answers, the words
waiting and the choices. -/
def State.withReadSideOf (s o : State) : State :=
  { s with seq := o.seq, txlog := o.txlog, rspR := o.rspR, wIn := o.wIn, rIn := o.rIn, turns := o.turns }

/-- The state `s` with what the read side does not see taken from `o`: all but `AVG`, the sequencer, the frames and port R's
answers. -/
def State.withWriteSideOf (s o : State) : State :=
  { o with avg := s.avg, seq := s.seq, txlog := s.txlog, rspR := s.rspR }

/-- What commutes with the operation on each cell and with an answer commutes with the operation on the fields of a word. -/
theorem State.onCell_hom (g : State → State) (s : State) (p : Port) {f f' : CellId → State}
    (haway : (g s).turnAway p = g (s.turnAway p)) (hf : ∀ k, f' k = g (f k)) (b c : BitVec 4) :
    (g s).onCell p b c f' = g (s.onCell p b c f) := by
  unfold State.onCell
  cases cellOf b c with
  | some k => exact hf k
  | none => exact haway

/-- A read-side operation does the same whatever the write side's state is. -/
theorem exec_withWriteSideOf {i : Instr} {s t : State} (o : State) (hport : i.port = .r) (h : exec i s = .next t) :
    exec i (s.withWriteSideOf o) = .next (t.withWriteSideOf o) := by
  cases i <;> cases h
  case nop p => cases hport; rfl
  case rdavg b c => exact congrArg _ (State.onCell_hom (State.withWriteSideOf · o) s .r (by rfl) (by exact fun _ => rfl) b c)
  case enc b c v => exact congrArg _ (State.onCell_hom (State.withWriteSideOf · o) s .r (by rfl) (by exact fun _ => rfl) b c)
  case seq => rfl
  all_goals cases hport

section
variable (s o : State)

theorem State.consumeSamples_withReadSideOf :
    (s.withReadSideOf o).consumeSamples = s.consumeSamples.withReadSideOf o := by
  unfold State.consumeSamples
  rw [show (s.withReadSideOf o).samples = s.samples from rfl]
  cases s.samples <;> rfl

theorem State.routeSamples_withReadSideOf (x : Samples) :
    (s.withReadSideOf o).routeSamples x = (s.routeSamples x).withReadSideOf o := by
  unfold State.routeSamples
  exact List.foldl_hom (State.withReadSideOf · o) fun _ _ => rfl

theorem State.advanceCur_withReadSideOf : (s.withReadSideOf o).advanceCur = s.advanceCur.withReadSideOf o := rfl

theorem State.sampleReading_withReadSideOf : (s.withReadSideOf o).sampleReading = s.sampleReading := rfl

theorem State.sampleAndAdvance_withReadSideOf :
    (s.withReadSideOf o).sampleAndAdvance = s.sampleAndAdvance.withReadSideOf o := by
  unfold State.sampleAndAdvance
  rw [State.consumeSamples_withReadSideOf, State.sampleReading_withReadSideOf, State.routeSamples_withReadSideOf,
    State.advanceCur_withReadSideOf]

theorem State.respond_w_withReadSideOf (r : Response) :
    (s.withReadSideOf o).respond .w r = (s.respond .w r).withReadSideOf o := rfl

theorem State.average_withReadSideOf (k : CellId) : (s.withReadSideOf o).average k = s.average k :=
  State.average_congr k fun _ => rfl

theorem State.reduceResults_withReadSideOf : (s.withReadSideOf o).reduceResults = s.reduceResults := by
  simp only [State.reduceResults, State.average_withReadSideOf]

theorem State.reduce_withReadSideOf : (s.withReadSideOf o).reduce = s.reduce.withReadSideOf o := by
  unfold State.reduce State.storeAll
  rw [State.reduceResults_withReadSideOf]
  exact List.foldl_hom (State.withReadSideOf · o) fun _ _ => rfl

theorem State.reduceAndRespond_withReadSideOf :
    (s.withReadSideOf o).reduceAndRespond = s.reduceAndRespond.withReadSideOf o := by
  have hcfg : (s.withReadSideOf o).cfg = s.cfg := rfl
  cases hg : s.cfg.granularity with
  | tick =>
    rw [s.reduceAndRespond_tick hg, State.reduceAndRespond_tick _ (hcfg ▸ hg), State.reduce_withReadSideOf,
      State.respond_w_withReadSideOf]
  | slot =>
    rw [s.reduceAndRespond_slot hg, State.reduceAndRespond_slot _ (hcfg ▸ hg), State.reduceResults_withReadSideOf]
    generalize s.reduceResults = owed
    rfl

theorem State.finishTick_withReadSideOf : (s.withReadSideOf o).finishTick = s.finishTick.withReadSideOf o := by
  unfold State.finishTick
  rw [State.reduceAndRespond_withReadSideOf, show (s.withReadSideOf o).reduceDue = s.reduceDue from rfl]
  split <;> rfl

end

/-- A write-side operation does the same whatever the read side's state is. -/
theorem exec_withReadSideOf {i : Instr} {s t : State} (o : State) (hport : i.port = .w) (h : exec i s = .next t) :
    exec i (s.withReadSideOf o) = .next (t.withReadSideOf o) := by
  cases i
  case nop p => cases hport; cases h; rfl
  case wr b c d =>
    cases h
    exact congrArg _ (State.onCell_hom (State.withReadSideOf · o) s .w (by rfl) (by exact fun _ => rfl) b c)
  case adv => cases h; rfl
  case tick =>
    rw [exec_tick] at h
    cases h
    rw [exec_tick, State.sampleAndAdvance_withReadSideOf, State.finishTick_withReadSideOf]
  case red => cases h; exact congrArg _ (s.reduceAndRespond_withReadSideOf o)
  all_goals cases hport

/-- Settles O39: the second state is the first with the other side's part replaced. -/
theorem eachSideSeesOnlyItsOwnState : Obligations.EachSideSeesOnlyItsOwnState := by
  intro i s s' t t' h h'
  refine ⟨fun hport havg hseq hlog hrsp => ?_, fun hport hs' => ?_⟩
  · have hs' : s.withWriteSideOf s' = s' := by rw [State.withWriteSideOf, ← havg, ← hseq, ← hlog, ← hrsp]
    have ht' := exec_withWriteSideOf s' hport h
    rw [hs', h'] at ht'
    cases ht'
    exact ⟨rfl, rfl, rfl, rfl⟩
  · have hsame : s.withReadSideOf s' = s' := by rw [hs']; rfl
    have ht' := exec_withReadSideOf s' hport h
    rw [hsame, h'] at ht'
    cases ht'
    rw [(hport ▸ exec_effect h : Effect s .w t).frame_w, hs']
    rfl

end Sys2Proof.Machine
end

section
/-! The lines of a program presented to a quiet block (30_encoding.md section 5). -/

namespace Sys2Proof.Machine

/-- The state with these words waiting and these choices to come. -/
def State.withInputs (s : State) (w r : List Word) (cs : List Choice) : State := { s with wIn := w, rIn := r, turns := cs }

/-- No operation sees the words waiting or the choices to come. -/
theorem exec_withInputs {i : Instr} {s t : State} (h : exec i s = .next t) (w r : List Word) (cs : List Choice) :
    exec i (s.withInputs w r cs) = .next (t.withInputs w r cs) := by
  have he := exec_effect h
  cases hport : i.port with
  | w =>
    have hrun := exec_withReadSideOf (s.withInputs w r cs) hport h
    rw [(hport ▸ he : Effect s .w t).frame_w] at hrun ⊢
    exact hrun
  | r =>
    have hrun := exec_withWriteSideOf (s.withInputs w r cs) hport h
    rw [(hport ▸ he : Effect s .r t).frame_r] at hrun ⊢
    exact hrun

/-- Under `Tick` no operation leaves a store owed. -/
theorem Effect.owes_nothing {s t : State} {p : Port} (h : Effect s p t) (htick : s.cfg.granularity = .tick)
    (howed : s.publishing = []) : t.publishing = [] := by
  cases h
  case sampleAndReduce =>
    rw [State.publishing_reduceAndRespond_tick (by rw [State.sampleAndAdvance_cfg, htick]), State.sampleAndAdvance_publishing,
      howed]
  case reduce => rw [State.publishing_reduceAndRespond_tick htick, howed]
  all_goals simpa using howed

/-- The choices that keep the lines of a program in order. -/
def lineChoices (prog : List Line) : List Choice := prog.map fun l => .line l.instr.port

/-- The state in which these lines wait. -/
def State.withLines (s : State) (prog : List Line) : State :=
  s.withInputs (wordsFor .w prog) (wordsFor .r prog) (lineChoices prog)

theorem wordsFor_cons (p : Port) (l : Line) (prog : List Line) :
    wordsFor p (l :: prog) = if l.instr.port = p then encode l.instr :: wordsFor p prog else wordsFor p prog := by
  unfold wordsFor
  split <;> simp [*]

/-- The first of the lines that wait is accepted, and the others go on waiting. -/
theorem step_withLines {s : State} {l : Line} {prog : List Line} (hrst : s.rst = false) (howed : s.publishing = [])
    (hwf : l.instr.wellFormed = true) : step (s.withLines (l :: prog)) = exec l.instr (s.withLines prog) := by
  have hin : (s.withLines (l :: prog)).portIn l.instr.port = encode l.instr :: wordsFor l.instr.port prog := by
    cases hport : l.instr.port <;> simp [State.withLines, State.withInputs, wordsFor_cons, hport]
  rw [step_line (s := s.withLines (l :: prog)) (cs := lineChoices prog) hrst rfl (hin ▸ List.cons_ne_nil _ _) howed,
    accept_decoded (s := { s.withLines (l :: prog) with turns := lineChoices prog })
      ((State.portIn_congr rfl rfl _).trans hin) (decode_encode hwf)]
  congr 1
  cases hport : l.instr.port <;> simp [State.withLines, State.withInputs, State.setPortIn, wordsFor_cons, hport]

theorem run_succ {M : Host.Core} {s u : M.State} (h : M.step s = .next u) (n : Nat) : M.run (n + 1) s = M.run n u := by
  rw [Host.Core.run, h]

/-- As many steps as lines wait carry out their operations in order. -/
theorem run_withLines {s : State} (prog : List Line) (hrst : s.rst = false) (howed : s.publishing = [])
    (htick : s.cfg.granularity = .tick) (hwf : ∀ l ∈ prog, l.instr.wellFormed = true) :
    ∃ t : State, Host.Core.run Sys2Proof.core prog.length (s.withLines prog) = .next t ∧
      execAll (prog.map Line.instr) (s.withLines []) = .next t := by
  induction prog generalizing s with
  | nil => exact ⟨s.withLines [], rfl, rfl⟩
  | cons l prog ih =>
    obtain ⟨hl, hprog⟩ := List.forall_mem_cons.mp hwf
    obtain ⟨u, hu⟩ := exec_completes l.instr s
    obtain ⟨hurst, -, -, -, hucfg⟩ := exec_keeps_inputs hu
    have huowed := (exec_effect hu).owes_nothing htick howed
    obtain ⟨t, hrun, hall⟩ := ih (by rw [hurst, hrst]) huowed (by rw [hucfg, htick]) hprog
    have hstep : step (s.withLines (l :: prog)) = .next (u.withLines prog) :=
      (step_withLines hrst howed hl).trans (exec_withInputs hu _ _ _)
    have hexec : exec l.instr (s.withLines []) = .next (u.withLines []) := exec_withInputs hu _ _ _
    refine ⟨t, ?_, ?_⟩
    · exact (run_succ (M := Sys2Proof.core) hstep prog.length).trans hrun
    · rw [List.map_cons, execAll, hexec]
      exact hall

/-- A program presented to a block with nothing waiting and no choice queued waits whole, its samples queued. -/
theorem State.present_eq_withLines {s : State} (hturns : s.turns = []) (hw : s.wIn = []) (hr : s.rIn = [])
    (prog : List Line) :
    s.present prog = { s with samples := s.samples ++ prog.flatMap Line.samples : State }.withLines prog := by
  simp [State.present, State.withLines, State.withInputs, lineChoices, hturns, hw, hr]

theorem State.withLines_nil {s : State} (hturns : s.turns = []) (hw : s.wIn = []) (hr : s.rIn = []) : s.withLines [] = s := by
  rw [State.withLines, show wordsFor .w [] = s.wIn from hw.symm, show wordsFor .r [] = s.rIn from hr.symm,
    show lineChoices [] = s.turns from hturns.symm]
  rfl

/-- Settles O45, by induction on the lines: a program presented to a quiet block waits whole. -/
theorem presentedLinesRunInOrder : Obligations.PresentedLinesRunInOrder := by
  intro s prog hrst howed hturns hw hr htick hwf
  obtain ⟨t, hrun, hall⟩ :=
    run_withLines (s := { s with samples := s.samples ++ prog.flatMap Line.samples }) prog hrst howed htick hwf
  have hnone := State.withLines_nil (s := { s with samples := s.samples ++ prog.flatMap Line.samples }) hturns hw hr
  exact ⟨t, by rw [State.present_eq_withLines hturns hw hr, hrun], (congrArg _ hnone.symm).trans hall⟩

end Sys2Proof.Machine
end
